-- ==== Sys2Proof/Word.lean ====
section
/-!
DEFINITION. The words of the hardware: a byte, a 16-bit checksum word, the names of the two links and of the
three framer states.
-/

namespace Sys2Proof

/-- A byte, "an integer in 0..255" (00_scope.md R9). -/
abbrev Byte := BitVec 8

/-- A `u16`: the checksum and the accumulator (00_scope.md R9, 10_state.md R14). -/
abbrev U16 := BitVec 16

/-- The two physical links, `NUM_LINKS = 2` (00_scope.md R8). -/
inductive Link where
  | hostLink
  | boardLink
deriving DecidableEq, Repr

/-- The link that a link is not. -/
def Link.other : Link → Link
  | .hostLink => .boardLink
  | .boardLink => .hostLink

/-- The framer state `st`, "an enumeration with exactly three values" (10_state.md R11). No binary encoding
exists: it is not observable (D10). -/
inductive FramerSt where
  | reset
  | data
  | checksum
deriving DecidableEq, Repr

end Sys2Proof
end

