-- ==== Sys2Proof/Config.lean ====
section
/-!
DEFINITION. What one built device fixes (00_scope.md section 3) and the free values of the model.
-/

namespace Sys2Proof

/-- The five parameters of the checksum (00_scope.md R7). -/
structure CrcParams where
  poly : U16
  init : U16
  refin : Bool
  refout : Bool
  xorout : U16
deriving DecidableEq, Repr

/-- The default checksum parameters (41_integrity_codec.md R93; the spec's own choice, D3). -/
def CrcParams.default : CrcParams :=
  { poly := 0x1021, init := 0xFFFF, refin := false, refout := false, xorout := 0x0000 }

/-- "Every parameter below is a constant of one built device" (00_scope.md section 3): `MAX_PACKET_SIZE` (R5),
`BUF_CAPACITY` (R6) and the checksum's parameters (R7). A field of the state holds the device's `Params`; no
operation writes it, and every statement quantifies over it (D1: "Claims should be proved for all values in
range"). -/
structure Params where
  maxPacketSize : Nat
  bufCapacity : Nat
  crc : CrcParams
deriving DecidableEq, Repr

/-- The parameters `State.reset` carries. `MAX_PACKET_SIZE` is OPEN in the spec (D1): 64 is a DESIGN CHOICE (the
value most of 95_test_vectors.md uses; unsafe for a claim that rests on it, log 1). `BUF_CAPACITY` has the spec's
default `MAX_PACKET_SIZE` (R6), the checksum the spec's default (R93). -/
def Params.default : Params :=
  { maxPacketSize := 64, bufCapacity := 64, crc := CrcParams.default }

/-- FREE VALUE: the byte in a buffer cell that nothing has written since the last `HRESET`: "every cell of `buf`
unspecified" (10_state.md R23, U5). Its arguments are the count of `HRESET`s, the link and the cell's index. It has
no body: nothing can be proved of a value of it (DESIGN CHOICE, safe, log 3). -/
opaque Config.unspecifiedByte : Nat → Link → Nat → Byte

end Sys2Proof
end

