-- ==== Sys2Proof/Machine/Checksum.lean ====
section
/-!
DEFINITION. The Integrity Codec's functions (41_integrity_codec.md R91, R92, R94): pure, no state (10_state.md R24).
-/

namespace Sys2Proof.Machine

/-- One shift of the checksum register: `c[15]` decides whether the polynomial enters (41_integrity_codec.md R92). -/
def crcShift (poly c : U16) : U16 := if c.getLsbD 15 then (c <<< 1) ^^^ poly else c <<< 1

/-- `k` shifts of the checksum register (41_integrity_codec.md R92: "repeat 8 times"). -/
def crcShifts (poly : U16) : Nat → U16 → U16
  | 0, c => c
  | k + 1, c => crcShifts poly k (crcShift poly c)

/-- `reflect_8`: "bit `i` is bit `(k-1-i)` of `v`" (41_integrity_codec.md R91). -/
def reflect8 (v : Byte) : Byte := v.reverse

/-- `reflect_16` (41_integrity_codec.md R91). -/
def reflect16 (v : U16) : U16 := v.reverse

/-- The byte as it enters the register (41_integrity_codec.md R92). -/
def crcInput (k : CrcParams) (b : Byte) : Byte := if k.refin then reflect8 b else b

/-- `CRCUPD(c, b)`: "x enters the high byte", then eight shifts (41_integrity_codec.md R92). -/
def crcUpd (k : CrcParams) (c : U16) (b : Byte) : U16 :=
  crcShifts k.poly 8 (c ^^^ ((crcInput k b).setWidth 16 <<< 8))

/-- The register after the bytes `xs`, in that order, from `c` (41_integrity_codec.md R91). -/
def crcFold (k : CrcParams) (c : U16) (xs : List Byte) : U16 := xs.foldl (crcUpd k) c

/-- The end of `CRC16`: the output reflection and the final exclusive or (41_integrity_codec.md R91). -/
def crcFinish (k : CrcParams) (c : U16) : U16 := (if k.refout then reflect16 c else c) ^^^ k.xorout

/-- `CRC16(xs)` (41_integrity_codec.md R91). -/
def crc16Of (k : CrcParams) (xs : List Byte) : U16 := crcFinish k (crcFold k k.init xs)

/-- Entry `i` of the table `T`: "the result of the `repeat 8 times` loop started from `c = i << 8`", "a constant of
`CRC_POLY` alone, not state" (41_integrity_codec.md R92). -/
def crcTable (poly : U16) (i : Byte) : U16 := crcShifts poly 8 (i.setWidth 16 <<< 8)

/-- The table form of `CRCUPD` (41_integrity_codec.md R92). -/
def crcUpdTable (k : CrcParams) (c : U16) (b : Byte) : U16 :=
  (c <<< 8) ^^^ crcTable k.poly ((c >>> 8).setWidth 8 ^^^ crcInput k b)

/-- `VERIFY(xs, r)`: "equality of two 16-bit values" (41_integrity_codec.md R94). -/
def verifyOf (k : CrcParams) (xs : List Byte) (r : U16) : Bool := decide (crc16Of k xs = r)

end Sys2Proof.Machine
end

