-- ==== Sys2Proof/Syntax.lean ====
section
/-!
DEFINITION. The operations of the block: one constructor for each row of spec/opcode_table.json (30_encoding.md R59,
R62).
-/

namespace Sys2Proof

/-- One operation of the block, with the case of `RXBYTE` already chosen (30_encoding.md R59: the `RXBYTE` rows
"are the names of its three cases, chosen by `L.st`"). A link `l` is the row's link selector, which is no wire
field. -/
inductive Instr where
  /-- `RXBYTE.LEN.accept`: a legal length byte received in `Reset` (40_rx_framer.md R71). -/
  | rxbyteLenAccept (l : Link) (n : Byte)
  /-- `RXBYTE.LEN.reject`: an illegal length byte received in `Reset` (40_rx_framer.md R72). -/
  | rxbyteLenReject (l : Link) (n : Byte)
  /-- `RXBYTE.DATA.store`: a payload byte that the buffer has room for (40_rx_framer.md R73). -/
  | rxbyteDataStore (l : Link) (b : Byte)
  /-- `RXBYTE.DATA.overflow`: a payload byte that finds the buffer full (40_rx_framer.md R74). -/
  | rxbyteDataOverflow (l : Link) (b : Byte)
  /-- `RXBYTE.CKS`: a checksum byte (40_rx_framer.md R75, R76). -/
  | rxbyteCks (l : Link) (b : Byte)
  /-- `SRESET`: the session reset of one link (43_session_control.md R120). -/
  | sreset (l : Link)
  /-- `HRESET`: the platform's reset of both links (70_reset_and_hazards.md R150). -/
  | hreset
  /-- `TXENC`: the frame encoder (42_tx_encoder.md R110). -/
  | txenc (p : List Byte)
  /-- `CRC16`: the checksum of a byte list (41_integrity_codec.md R91). -/
  | crc16 (xs : List Byte)
  /-- `CRCUPD`: one byte step of the checksum (41_integrity_codec.md R92). -/
  | crcupd (c : U16) (b : Byte)
  /-- `VERIFY`: the comparison of a computed with a received checksum (41_integrity_codec.md R94). -/
  | verify (xs : List Byte) (r : U16)
deriving DecidableEq, Repr

end Sys2Proof
end

