-- ==== Sys2Proof/Decode.lean ====
section
/-!
DEFINITION. The decoder: which row of the operation table an operation presented at the boundary is (30_encoding.md
R56, R59, R62; 40_rx_framer.md R70), total, rejecting by name; and after it the encoder. No operation has a binary
opcode (D5): what is decoded is the wire byte of `RXBYTE`, and its meaning comes from the framer's state, not from
its value (R56).
-/

namespace Sys2Proof

/-- One of the seven operations (30_encoding.md R59) as the environment issues it at the boundary: "`RXBYTE(L, b)` is
the single operation the environment issues", whatever its case. -/
inductive Request where
  | rxbyte (l : Link) (b : Byte)
  | sreset (l : Link)
  | hreset
  | txenc (p : List Byte)
  | crc16 (xs : List Byte)
  | crcupd (c : U16) (b : Byte)
  | verify (xs : List Byte) (r : U16)
deriving DecidableEq, Repr

/-- The part of a link's state that decides how its next byte is read (30_encoding.md R62: `select.state`, then
`select.cond`). -/
structure RxView where
  st : FramerSt
  idx : Nat
deriving DecidableEq, Repr

/-- The view of a link right after a reset: the next byte is a length byte (70_reset_and_hazards.md R151). -/
def RxView.afterReset : RxView := { st := .reset, idx := 0 }

/-- "A length byte `n` is legal exactly when `3 <= n` and `n < MAX_PACKET_SIZE`" (30_encoding.md R52), on a number. -/
def Params.legalLength (p : Params) (n : Nat) : Bool := decide (3 ≤ n ∧ n < p.maxPacketSize)

/-- The case of `RXBYTE(L, b)`: `L.st` first, then the row's condition (40_rx_framer.md R70, R71 to R75;
60_exceptions.md R136). -/
def decodeRx (p : Params) (v : RxView) (l : Link) (b : Byte) : Instr :=
  match v.st with
  | .reset => if p.legalLength b.toNat then .rxbyteLenAccept l b else .rxbyteLenReject l b
  | .data => if v.idx < p.bufCapacity then .rxbyteDataStore l b else .rxbyteDataOverflow l b
  | .checksum => .rxbyteCks l b

/-- The row of the operation table that a presented operation is (30_encoding.md R59). It is total: "The rules of
`40_rx_framer.md` are total" (10_state.md R18). -/
def decode (p : Params) (view : Link → RxView) : Request → Instr
  | .rxbyte l b => decodeRx p (view l) l b
  | .sreset l => .sreset l
  | .hreset => .hreset
  | .txenc q => .txenc q
  | .crc16 xs => .crc16 xs
  | .crcupd c b => .crcupd c b
  | .verify xs r => .verify xs r

/-- What the environment presents at one instant, read: nothing, one operation, or something the block gives no
meaning. -/
inductive Presented where
  /-- The poll finds nothing: "when it returns none, nothing happens" (60_exceptions.md R144). -/
  | nothing
  /-- One operation. -/
  | operation (i : Instr)
  /-- Two or more operations at the same instant: "a model accepts one operation at a time" (60_exceptions.md R136,
  U7). -/
  | simultaneous
deriving DecidableEq, Repr

/-- Reads one instant of the environment (60_exceptions.md R136, R144). -/
def decodeInstant (p : Params) (view : Link → RxView) : List Request → Presented
  | [] => .nothing
  | [r] => .operation (decode p view r)
  | _ :: _ :: _ => .simultaneous

/-- Why a run of wire bytes is not one operation. -/
inductive WireReject where
  /-- There is no byte: no operation is issued (20_memory.md R42). -/
  | noByte
  /-- There is more than one byte: "consumes one byte per call" (40_rx_framer.md R70). -/
  | moreThanOneByte
deriving DecidableEq, Repr

/-- The operation that wire bytes arriving on a link are: exactly one byte is one operation (20_memory.md R42). -/
def decodeWire (p : Params) (v : RxView) (l : Link) : List Byte → Except WireReject Instr
  | [] => .error .noByte
  | [b] => .ok (decodeRx p v l b)
  | _ :: _ :: _ => .error .moreThanOneByte

/-- The wire bytes of an instruction whose bits are `w`: the table's only encodings are one byte wide
(30_encoding.md R62), and every other width is no instruction. -/
def wireBytes (nbits w : Nat) : List Byte := if nbits = 8 then [BitVec.ofNat 8 w] else []

/-- The instruction the decoder reads from an instruction of spec/opcode_table.json whose bits are `w`, for the
machine right after reset and a byte on `HostLink` (the table's rows do not carry the state or the link: DESIGN
CHOICE, log 11). The rows whose encoding is "-" take no wire byte, so no width gives them. -/
def decodeTableWord (nbits w : Nat) : Option Instr :=
  match decodeWire Params.default RxView.afterReset .hostLink (wireBytes nbits w) with
  | .ok i => some i
  | .error _ => none

/-- The operation at the boundary that a row stands for (30_encoding.md R59). -/
def encode : Instr → Request
  | .rxbyteLenAccept l n => .rxbyte l n
  | .rxbyteLenReject l n => .rxbyte l n
  | .rxbyteDataStore l b => .rxbyte l b
  | .rxbyteDataOverflow l b => .rxbyte l b
  | .rxbyteCks l b => .rxbyte l b
  | .sreset l => .sreset l
  | .hreset => .hreset
  | .txenc p => .txenc p
  | .crc16 xs => .crc16 xs
  | .crcupd c b => .crcupd c b
  | .verify xs r => .verify xs r

/-- The wire bytes of a row: its one operand byte, all eight bits of it, for the `RXBYTE` rows, and none for the
operations that take no wire byte (30_encoding.md R62). -/
def encodeWire : Instr → List Byte
  | .rxbyteLenAccept _ n => [n]
  | .rxbyteLenReject _ n => [n]
  | .rxbyteDataStore _ b => [b]
  | .rxbyteDataOverflow _ b => [b]
  | .rxbyteCks _ b => [b]
  | .sreset _ => []
  | .hreset => []
  | .txenc _ => []
  | .crc16 _ => []
  | .crcupd _ _ => []
  | .verify _ _ => []

/-- The `select` object of a row: the state and the condition that choose it (spec/opcode_table.json, 30_encoding.md
R62). A row without a state condition is always selected. -/
def Instr.selected (p : Params) (view : Link → RxView) : Instr → Bool
  | .rxbyteLenAccept l n => decide ((view l).st = .reset) && p.legalLength n.toNat
  | .rxbyteLenReject l n => decide ((view l).st = .reset) && !p.legalLength n.toNat
  | .rxbyteDataStore l _ => decide ((view l).st = .data ∧ (view l).idx < p.bufCapacity)
  | .rxbyteDataOverflow l _ => decide ((view l).st = .data ∧ p.bufCapacity ≤ (view l).idx)
  | .rxbyteCks l _ => decide ((view l).st = .checksum)
  | .sreset _ => true
  | .hreset => true
  | .txenc _ => true
  | .crc16 _ => true
  | .crcupd _ _ => true
  | .verify _ _ => true

end Sys2Proof
end

