-- ==== Sys2Proof/WellFormed.lean ====
section
/-!
DEFINITION. Which parameters and which operations are well formed, before any state is looked at.
-/

namespace Sys2Proof

/-- The constraints on the parameters: `4 <= MAX_PACKET_SIZE <= 256` (00_scope.md R5) and `BUF_CAPACITY >= 1` (R6). -/
def Params.wf (p : Params) : Bool :=
  decide (4 ≤ p.maxPacketSize ∧ p.maxPacketSize ≤ 256 ∧ 1 ≤ p.bufCapacity)

/-- An operation is well formed for a device: an accepted length is legal and a rejected one is not (30_encoding.md
R52, R57). Every operand of every other row is admitted: "Every byte value 0..255 is legal at every payload position"
(R53), in both checksum positions (R54), and `TXENC`, `CRC16` and `VERIFY` take every byte list (R59, 42_tx_encoder.md
R111). -/
def Instr.wf (p : Params) : Instr → Bool
  | .rxbyteLenAccept _ n => p.legalLength n.toNat
  | .rxbyteLenReject _ n => !p.legalLength n.toNat
  | .rxbyteDataStore _ _ => true
  | .rxbyteDataOverflow _ _ => true
  | .rxbyteCks _ _ => true
  | .sreset _ => true
  | .hreset => true
  | .txenc _ => true
  | .crc16 _ => true
  | .crcupd _ _ => true
  | .verify _ _ => true

end Sys2Proof
end

