-- ==== Sys2Proof/Machine/State.lean ====
section
/-!
DEFINITION. The state of the block as plain data, the events an operation yields, the machine right after reset, and
the reasons a step can stop.
-/

namespace Sys2Proof.Machine

/-- The result event of an operation (60_exceptions.md R131, "The set is closed"). -/
inductive Event where
  /-- `EV_NONE`: an operation that only advances or resets. -/
  | none
  /-- `EV_LEN_REJECT`: framing error, invalid length (R132). -/
  | lenReject
  /-- `EV_OVERFLOW`: framing error, buffer overflow (R133). -/
  | overflow
  /-- `EV_FRAME_BAD`: integrity error (R134). -/
  | frameBad
  /-- `EV_FRAME_OK`: the delivery, carrying the payload as a value (R138, 20_memory.md R38). -/
  | frameOk (payload : List Byte)
  /-- `EV_TX_REFUSED`: `TXENC` cannot frame the payload (42_tx_encoder.md R111). -/
  | txRefused
deriving DecidableEq, Repr

/-- The code of an event (60_exceptions.md R131). -/
def Event.code : Event → Nat
  | .none => 0
  | .lenReject => 1
  | .overflow => 2
  | .frameBad => 3
  | .frameOk _ => 4
  | .txRefused => 5

/-- The classes of events (60_exceptions.md R130, R131). -/
inductive EventClass where
  | noError
  | framingError
  | integrityError
  | delivery
  | refusal
deriving DecidableEq, Repr

/-- The class of an event (60_exceptions.md R131). -/
def Event.cls : Event → EventClass
  | .none => .noError
  | .lenReject => .framingError
  | .overflow => .framingError
  | .frameBad => .integrityError
  | .frameOk _ => .delivery
  | .txRefused => .refusal

/-- The source's own interface: "A model that wants the source's exact interface maps codes 1, 2, 3 to code 0"
(60_exceptions.md R131). -/
def Event.sourceView : Event → Event
  | .lenReject => .none
  | .overflow => .none
  | .frameBad => .none
  | .none => .none
  | .frameOk p => .frameOk p
  | .txRefused => .txRefused

/-- What an operation yields: its event with the link it belongs to (60_exceptions.md R138: "implicitly, the identity
of the link it arrived on"), or the value a function returns ("The pure functions `CRC16`, `CRCUPD`, `VERIFY` return
values, not events", R131; `TXENC(p) -> bytes`, 42_tx_encoder.md R110). -/
inductive Result where
  /-- An event, and the link it belongs to if the operation has one. -/
  | event (link : Option Link) (e : Event)
  /-- The frame `TXENC` returns, handed whole to the transport (42_tx_encoder.md R113). -/
  | frame (bytes : List Byte)
  /-- The value of `CRC16` or `CRCUPD`. -/
  | word (v : U16)
  /-- The value of `VERIFY`. -/
  | verdict (v : Bool)
deriving DecidableEq, Repr

/-- A receive buffer (10_state.md R15, 20_memory.md R30): the cells written since the last `HRESET`, as (index, byte)
pairs with the indices strictly rising. A cell that is not listed holds no known value (log 3). -/
abbrev Memory := List Host.Cell

/-- The state of one link's framer (10_state.md R10 to R15). -/
structure Framer where
  /-- The framer state (R11). -/
  st : FramerSt
  /-- The "length-remaining countdown", 8 bits (R12). -/
  rem : BitVec 8
  /-- The "current write index", "an integer in `0..BUF_CAPACITY`" (R13; a Nat, log 5). -/
  idx : Nat
  /-- The "running checksum accumulator": the received checksum, 16 bits (R14, 90_conflicts.md C3). -/
  acc : U16
  /-- The receive buffer (R15). -/
  buf : Memory
deriving DecidableEq, Repr

/-- The whole state (10_state.md R10), with the device's parameters and the model's own fields. -/
structure State where
  /-- The parameters of the built device: "None can be changed while the block runs" (00_scope.md section 3). -/
  params : Params
  /-- The framer of `HostLink` (R10, 60_exceptions.md R145). -/
  hostLink : Framer
  /-- The framer of `BoardLink` (R10, 60_exceptions.md R145). -/
  boardLink : Framer
  /-- The MODEL's own: whether an `HRESET` has been applied (70_reset_and_hazards.md R152 (a), U6; log 7). -/
  hresetDone : Bool
  /-- The MODEL's own: how many `HRESET`s there were, the first argument of the free bytes (log 3). -/
  epoch : Nat
  /-- The MODEL's own: what the last operation yielded (log 9). -/
  out : Result
  /-- The MODEL's own: what the environment presents, one list an instant, the next instant first (60_exceptions.md
  R139, R144; log 6). -/
  inbox : List (List Request)
deriving DecidableEq, Repr

/-- Why the machine stops with a fault. -/
inductive Fault where
  /-- Raised by a frame completion whose `idx` exceeds `BUF_CAPACITY`: it would read a cell that does not exist
  (00_scope.md R9: "Both require `0 <= i < BUF_CAPACITY`"). No state of the spec has such an `idx` (10_state.md R13,
  R17 (c)). Safe: log 5. -/
  | bufferReadOutOfRange
deriving DecidableEq, Repr

/-- Why an operation has no meaning. -/
inductive Refusal where
  /-- Raised by no arm of this model: every operation has its meaning. Safe. -/
  | notModelled (mnemonic : String)
  /-- Raised by `RXBYTE` before any `HRESET`: "a run that issues `RXBYTE` before `HRESET` has no meaning" (U6,
  70_reset_and_hazards.md R152 (a)). Safe: log 7. -/
  | rxBeforeHreset
  /-- Raised by an `RXBYTE` row executed in a state that does not select it (30_encoding.md R59, R62): no such operation
  exists, and `step`, which decodes, never issues one. Safe: log 10. -/
  | caseNotSelected
  /-- Raised by `step` when the environment presents two operations at one instant: "simultaneous requests are outside
  the spec and a model refuses them" (60_exceptions.md R136, D21, U7). Safe: log 8. -/
  | simultaneousOperations
deriving DecidableEq, Repr

/-- A framer after `HRESET`: `st = Reset`, `rem = 0`, `idx = 0`, `acc = 0`, and no cell of `buf` known (10_state.md
R23). -/
def Framer.afterHreset : Framer :=
  { st := .reset, rem := 0, idx := 0, acc := 0, buf := [] }

/-- The machine right after `HRESET` in a device with the parameters `p` (10_state.md R23, 70_reset_and_hazards.md
R150). -/
def State.resetWith (p : Params) : State :=
  { params := p
    hostLink := Framer.afterHreset
    boardLink := Framer.afterHreset
    hresetDone := true
    epoch := 0
    out := .event none .none
    inbox := [] }

/-- The machine right after reset, with the parameters of `Params.default` (log 1). -/
def State.reset : State := State.resetWith Params.default

end Sys2Proof.Machine
end

