-- ==== Sys2Proof/Machine/Operands.lean ====
section
/-!
DEFINITION. The operands of the operations: a link's framer, read and written through one pair of functions, and the
cells of its buffer, one byte wide each (20_memory.md R30, R36). Every other operand is a value the operation carries.
-/

namespace Sys2Proof.Machine

/-- The framer of link `l` ("the link is an explicit operand of every stateful operation", 60_exceptions.md R145). -/
def State.link (s : State) : Link → Framer
  | .hostLink => s.hostLink
  | .boardLink => s.boardLink

/-- The state with link `l`'s framer replaced: the one way a framer is written. The other link's is untouched
(10_state.md R10). -/
def State.setLink (s : State) (l : Link) (f : Framer) : State :=
  match l with
  | .hostLink => { s with hostLink := f }
  | .boardLink => { s with boardLink := f }

/-- The state with what the operation yields recorded (the MODEL's own field `out`, log 9). -/
def State.withOut (s : State) (r : Result) : State := { s with out := r }

/-- What decides how the next byte of each link is read (10_state.md R16). -/
def State.view (s : State) (l : Link) : RxView := { st := (s.link l).st, idx := (s.link l).idx }

/-- The byte a buffer lists at an index: none if nothing has written that cell (10_state.md R23). -/
def Memory.get : Memory → Nat → Option Byte
  | [], _ => none
  | (a, v) :: m, i => if i = a then some v else Memory.get m i

/-- The buffer with byte `v` in cell `i`, its entries kept in order of index. -/
def Memory.set : Memory → Nat → Byte → Memory
  | [], i, v => [(i, v)]
  | (a, w) :: m, i, v =>
    if i < a then (i, v) :: (a, w) :: m
    else if i = a then (i, v) :: m
    else (a, w) :: Memory.set m i v

/-- Every index of the buffer is at least `lo`, and the indices rise strictly. -/
def Memory.sortedFrom : Nat → Memory → Bool
  | _, [] => true
  | lo, (a, _) :: m => decide (lo ≤ a) && Memory.sortedFrom (a + 1) m

/-- The canonical form of a buffer of `cap` cells: the indices rise strictly and lie in `0..cap-1` (20_memory.md R30).
No entry can equal what an unlisted cell reads as, for an unlisted cell reads as no known byte. -/
def Memory.wf (cap : Nat) (m : Memory) : Bool :=
  Memory.sortedFrom 0 m && m.all fun c => decide (c.1 < cap)

/-- `BufWrite(L, i, v)` (00_scope.md R9): only ever called after the check `i < BUF_CAPACITY` (20_memory.md R31). -/
def Framer.bufWrite (f : Framer) (i : Nat) (v : Byte) : Framer := { f with buf := Memory.set f.buf i v }

/-- The byte in cell `i` of link `l`'s buffer: the one last written there, or the free value of a cell that nothing
has written since the last `HRESET` (10_state.md R15, R23; log 3). -/
def State.cell (s : State) (l : Link) (i : Nat) : Byte :=
  ((s.link l).buf.get i).getD (Config.unspecifiedByte s.epoch l i)

/-- `BufRead(L, i)` (00_scope.md R9): none where the cell does not exist. "Reads have no side effect" (20_memory.md
R31). -/
def State.bufRead (s : State) (l : Link) (i : Nat) : Option Byte :=
  if i < s.params.bufCapacity then some (s.cell l i) else none

/-- `L.buf[0..n)`, "the list `BufRead(L, 0)`, ..., `BufRead(L, n-1)` in that order" (00_scope.md R9): none where one of
the cells does not exist. -/
def State.bufSlice (s : State) (l : Link) (n : Nat) : Option (List Byte) :=
  if n ≤ s.params.bufCapacity then some ((List.range n).map (s.cell l)) else none

end Sys2Proof.Machine
end

