-- ==== Sys2Proof/Machine/Flags.lean ====
section
/-!
DEFINITION. The block has no flags, condition codes or sticky error bits (10_state.md R19). What stands in their place
are the exact comparisons the `RXBYTE` cases make (40_rx_framer.md R77 (a), (b)).
-/

namespace Sys2Proof.Machine

/-- "when exactly 2 bytes remain": the end of the payload, tested after the decrement (40_rx_framer.md R73). -/
def payloadEnds (rem : BitVec 8) : Bool := decide (rem = 2#8)

/-- "when the countdown reaches zero": the end of the frame, tested after the decrement (40_rx_framer.md R75). -/
def frameEnds (rem : BitVec 8) : Bool := decide (rem = 0#8)

/-- The state of a link after a payload byte was stored, from the countdown after the decrement (40_rx_framer.md
R73). -/
def stAfterStore (rem : BitVec 8) : FramerSt := if payloadEnds rem then .checksum else .data

end Sys2Proof.Machine
end

