-- ==== Sys2Proof/Machine/Ops.lean ====
section
/-!
DEFINITION. The operations that the meanings share: emitting an event, raising an error (the block's only form of an
exception), the steps of the framer, frame completion, and the wire frame.
-/

namespace Sys2Proof.Machine

/-- The outcome of an operation. -/
abbrev Outcome := Host.Outcome State Fault Refusal

/-- Ends an operation with what it yields (00_scope.md R9: "Every operation produces exactly one result event";
60_exceptions.md R131 for the functions that return values). -/
def yields (s : State) (r : Result) : Outcome := .next (s.withOut r)

/-- `emit E`: the operation's result event, with the link it belongs to (00_scope.md R9). -/
def emit (s : State) (l : Option Link) (e : Event) : Outcome := yields s (.event l e)

/-- `raise <Error>(info)`: TAKING AN EXCEPTION on this hardware. "no state is saved anywhere; there is no handler, no
vector and no mode change; the only effect is the state change" that the error's rule names, already made in `s`, and
the operation ends with the error's event (60_exceptions.md R137, 00_scope.md R9). "there is no return instruction"
(R139): the block is ready for the next operation at once. -/
def raiseError (s : State) (l : Option Link) (e : Event) : Outcome := emit s l e

/-- What every case of `RXBYTE` needs first: an `HRESET` has been applied (70_reset_and_hazards.md R152 (a), U6) and
the state selects the case (30_encoding.md R62). -/
def guardRx (i : Instr) (s : State) (k : Outcome) : Outcome :=
  if s.hresetDone = false then .refused .rxBeforeHreset
  else if i.selected s.params s.view then k
  else .refused .caseNotSelected

/-- A frame is started: its length is accepted (40_rx_framer.md R71). The cells are not cleared. -/
def Framer.startFrame (f : Framer) (n : Byte) : Framer :=
  { f with idx := 0, acc := 0, rem := n, st := .data }

/-- A payload byte is stored: `buf[idx] <- b`, the index up, the countdown down (modulo 256), and on to `Checksum` when
exactly 2 bytes remain (40_rx_framer.md R73). -/
def Framer.storeByte (f : Framer) (b : Byte) : Framer :=
  { f.bufWrite f.idx b with
    idx := f.idx + 1
    rem := f.rem - 1#8
    st := stAfterStore (f.rem - 1#8) }

/-- The framer is put back to `Reset` and nothing else changes (40_rx_framer.md R74, R76). -/
def Framer.toReset (f : Framer) : Framer := { f with st := .reset }

/-- `acc <- ((acc << 8) | b) & 0xFFFF` (30_encoding.md R54, 40_rx_framer.md R75). -/
def accumulate (acc : U16) (b : Byte) : U16 := (acc <<< 8) ||| b.setWidth 16

/-- A checksum byte is taken: the accumulator shifts it in and the countdown goes down (40_rx_framer.md R75). -/
def Framer.takeChecksumByte (f : Framer) (b : Byte) : Framer :=
  { f with acc := accumulate f.acc b, rem := f.rem - 1#8 }

/-- A framer after a session reset: `buf` is not written (43_session_control.md R120). -/
def Framer.sessionReset (f : Framer) : Framer :=
  { f with st := .reset, rem := 0, idx := 0, acc := 0 }

/-- `COMPLETE(L)`, frame completion: `st <- Reset` "before anything is handed over", then the comparison decides
between the delivery and the integrity error (40_rx_framer.md R76, 41_integrity_codec.md R95). Where `idx` exceeds the
buffer, which is no state of the spec, the read has no meaning (log 5). -/
def complete (s : State) (l : Link) : Outcome :=
  match s.bufSlice l (s.link l).idx with
  | none => .fault .bufferReadOutOfRange
  | some payload =>
    if verifyOf s.params.crc payload (s.link l).acc then
      emit (s.setLink l (s.link l).toReset) (some l) (.frameOk payload)
    else
      raiseError (s.setLink l (s.link l).toReset) (some l) .frameBad

/-- The wire frame of a payload with the checksum `c`: the length byte (which counts the bytes after itself), the
payload, and the checksum high byte first (30_encoding.md R50, R51; 20_memory.md R34; 42_tx_encoder.md R110). -/
def wireFrame (p : List Byte) (c : U16) : List Byte :=
  BitVec.ofNat 8 (p.length + 2) :: (p ++ [(c >>> 8).setWidth 8, c.setWidth 8])

/-- Whether `TXENC` can frame a payload: `1 <= len(p) <= MAX_PACKET_SIZE - 3` (42_tx_encoder.md R110, R111). -/
def framable (p : Params) (q : List Byte) : Bool :=
  decide (1 ≤ q.length ∧ q.length + 3 ≤ p.maxPacketSize)

end Sys2Proof.Machine
end

