-- ==== Sys2Proof/Machine/Codec.lean ====
section
/-!
DEFINITION. The stateless operations: the frame encoder (42_tx_encoder.md) and the Integrity Codec
(41_integrity_codec.md).
-/

namespace Sys2Proof.Machine

/-- `TXENC(p)`: the wire frame of `p`, or `EV_TX_REFUSED` and no bytes where `p` cannot be framed (42_tx_encoder.md
R110, R111). It reads and writes no framer state (R113). -/
def execTxenc (p : List Byte) (s : State) : Outcome :=
  if framable s.params p then yields s (.frame (wireFrame p (crc16Of s.params.crc p)))
  else raiseError s none .txRefused

/-- `CRC16(xs)`: "it cannot fail" (41_integrity_codec.md R91). -/
def execCrc16 (xs : List Byte) (s : State) : Outcome := yields s (.word (crc16Of s.params.crc xs))

/-- `CRCUPD(c, b)` (41_integrity_codec.md R92). -/
def execCrcupd (c : U16) (b : Byte) (s : State) : Outcome := yields s (.word (crcUpd s.params.crc c b))

/-- `VERIFY(xs, r)` (41_integrity_codec.md R94). -/
def execVerify (xs : List Byte) (r : U16) (s : State) : Outcome :=
  yields s (.verdict (verifyOf s.params.crc xs r))

end Sys2Proof.Machine
end

