-- ==== Sys2Proof/Machine/Receive.lean ====
section
/-!
DEFINITION. The five cases of `RXBYTE` (40_rx_framer.md).
-/

namespace Sys2Proof.Machine

/-- `RXBYTE.LEN`, accepted length (40_rx_framer.md R71). -/
def execRxbyteLenAccept (l : Link) (n : Byte) (s : State) : Outcome :=
  guardRx (.rxbyteLenAccept l n) s (emit (s.setLink l ((s.link l).startFrame n)) (some l) .none)

/-- `RXBYTE.LEN`, rejected length: "no state element of L changes" (40_rx_framer.md R72). -/
def execRxbyteLenReject (l : Link) (n : Byte) (s : State) : Outcome :=
  guardRx (.rxbyteLenReject l n) s (raiseError s (some l) .lenReject)

/-- `RXBYTE.DATA`, store (40_rx_framer.md R73). -/
def execRxbyteDataStore (l : Link) (b : Byte) (s : State) : Outcome :=
  guardRx (.rxbyteDataStore l b) s (emit (s.setLink l ((s.link l).storeByte b)) (some l) .none)

/-- `RXBYTE.DATA`, overflow: "b is discarded; rem, idx, acc, buf unchanged" (40_rx_framer.md R74). -/
def execRxbyteDataOverflow (l : Link) (b : Byte) (s : State) : Outcome :=
  guardRx (.rxbyteDataOverflow l b) s (raiseError (s.setLink l (s.link l).toReset) (some l) .overflow)

/-- `RXBYTE.CKS`: accumulate, and complete the frame when the countdown reaches zero (40_rx_framer.md R75, R76). -/
def execRxbyteCks (l : Link) (b : Byte) (s : State) : Outcome :=
  guardRx (.rxbyteCks l b) s <|
    if frameEnds ((s.link l).takeChecksumByte b).rem then
      complete (s.setLink l ((s.link l).takeChecksumByte b)) l
    else
      emit (s.setLink l ((s.link l).takeChecksumByte b)) (some l) .none

end Sys2Proof.Machine
end

