-- ==== Sys2Proof/Machine/Session.lean ====
section
/-!
DEFINITION. The two resets (43_session_control.md, 70_reset_and_hazards.md section 1).
-/

namespace Sys2Proof.Machine

/-- `SRESET(L)`: "legal in every state", touches only link `L` (43_session_control.md R120, R122). -/
def execSreset (l : Link) (s : State) : Outcome :=
  emit (s.setLink l (s.link l).sessionReset) (some l) .none

/-- `HRESET()`: both links to the reset state; every buffer cell becomes unspecified, which the next `epoch` of free
bytes says (70_reset_and_hazards.md R150, 10_state.md R23; log 3). -/
def execHreset (s : State) : Outcome :=
  emit { s with
    hostLink := Framer.afterHreset
    boardLink := Framer.afterHreset
    hresetDone := true
    epoch := s.epoch + 1 } none .none

end Sys2Proof.Machine
end

