-- ==== Sys2Proof/Machine/Dispatch.lean ====
section
/-!
DEFINITION. One arm for each operation.
-/

namespace Sys2Proof.Machine

def exec (i : Instr) (s : State) : Host.Outcome State Fault Refusal :=
  match i with
  | .rxbyteLenAccept l n => Sys2Proof.Machine.execRxbyteLenAccept l n s
  | .rxbyteLenReject l n => Sys2Proof.Machine.execRxbyteLenReject l n s
  | .rxbyteDataStore l b => Sys2Proof.Machine.execRxbyteDataStore l b s
  | .rxbyteDataOverflow l b => Sys2Proof.Machine.execRxbyteDataOverflow l b s
  | .rxbyteCks l b => Sys2Proof.Machine.execRxbyteCks l b s
  | .sreset l => Sys2Proof.Machine.execSreset l s
  | .hreset => Sys2Proof.Machine.execHreset s
  | .txenc p => Sys2Proof.Machine.execTxenc p s
  | .crc16 xs => Sys2Proof.Machine.execCrc16 xs s
  | .crcupd c b => Sys2Proof.Machine.execCrcupd c b s
  | .verify xs r => Sys2Proof.Machine.execVerify xs r s

end Sys2Proof.Machine
end

