-- ==== Sys2Proof/Machine/Fetch.lean ====
section
/-!
DEFINITION. What stands in for a fetch (10_state.md R16: there is none): taking the environment's next instant, reading
it, and presenting operations.
-/

namespace Sys2Proof.Machine

/-- The state once the next instant of the environment has been taken: "a byte is consumed when it is presented and is
never seen again" (10_state.md R16). -/
def State.takeInstant (s : State) (rest : List (List Request)) : State := { s with inbox := rest }

/-- The state with one more operation presented, before everything that is presented already. -/
def State.present (s : State) (r : Request) : State := { s with inbox := [r] :: s.inbox }

/-- What the next instant of the environment holds, read with the state that stands before it (40_rx_framer.md R70). -/
def fetch (s : State) (instant : List Request) : Presented := decodeInstant s.params s.view instant

/-- What the environment presents for wire bytes that arrive on a link, one `RXBYTE` an instant (20_memory.md R42). -/
def wireInstants (l : Link) (bytes : List Byte) : List (List Request) := bytes.map fun b => [.rxbyte l b]

end Sys2Proof.Machine
end

