-- ==== Sys2Proof/Machine/Step.lean ====
section
/-!
DEFINITION. One step: one instant of the environment (log 6).
-/

namespace Sys2Proof.Machine

/-- One step. With nothing presented nothing happens (60_exceptions.md R144); one operation is performed whole
(20_memory.md R37); two at one instant are refused (60_exceptions.md R136). -/
def step (s : State) : Host.Outcome State Fault Refusal :=
  match s.inbox with
  | [] => .next s
  | instant :: rest =>
    match fetch s instant with
    | .nothing => .next (s.takeInstant rest)
    | .operation i => exec i (s.takeInstant rest)
    | .simultaneous => .refused .simultaneousOperations

/-- The state in which the instruction of spec/opcode_table.json whose bits are `w` comes next: its wire byte arrives
on `HostLink` before anything else that is presented (log 6, log 11). A width that is no instruction presents
nothing. -/
def State.withFetchWord (s : State) (nbits w : Nat) : State :=
  { s with inbox := wireInstants .hostLink (wireBytes nbits w) ++ s.inbox }

end Sys2Proof.Machine
end

