-- ==== Sys2Proof/Machine/Peers.lean ====
section
/-!
DEFINITION. Two devices at the ends of a link: whether they are built alike, and what becomes at the receiver of a frame
that the other device sent (70_reset_and_hazards.md R160, 41_integrity_codec.md R98). No operation reads these: "Both
ends must be built alike" is a duty of whoever builds the devices, and a device sees nothing of its peer but bytes.
-/

namespace Sys2Proof

/-- R160 (a): the five checksum parameters are identical at the sender and at the receiver. -/
def Params.checksumsAlike (sender receiver : Params) : Bool := decide (sender.crc = receiver.crc)

/-- R160 (b), first part: every length the sender emits is below the receiver's `MAX_PACKET_SIZE`. A sender emits lengths
up to its own `MAX_PACKET_SIZE - 1` (42_tx_encoder.md R110). -/
def Params.lengthsFit (sender receiver : Params) : Bool := decide (sender.maxPacketSize ≤ receiver.maxPacketSize)

/-- R160 (b), second part: every payload fits the receiver's buffer. A sender's payloads have up to
`MAX_PACKET_SIZE - 3` bytes (42_tx_encoder.md R110). -/
def Params.payloadsFit (sender receiver : Params) : Bool :=
  decide (sender.maxPacketSize ≤ receiver.bufCapacity + 3)

/-- The duty of R160, for frames from `sender` to `receiver`. -/
def Params.builtAlike (sender receiver : Params) : Bool :=
  sender.checksumsAlike receiver && sender.lengthsFit receiver && sender.payloadsFit receiver

namespace Machine

/-- What becomes of a frame at a receiver in `Reset`: how many of its bytes the receiver takes with `EV_NONE`, and the
event the byte after them yields, which leaves the receiver in `Reset`. -/
structure FrameFate where
  before : Nat
  event : Event
deriving DecidableEq, Repr

/-- The fate at `receiver` of the frame that `sender` makes of the payload `q` (R160, R98): a length that is illegal for
the receiver and a payload beyond its buffer are framing errors, and a checksum that comes out differently under the
receiver's parameters is an integrity error. Where the parameters differ and the two checksums of `q` agree all the same,
the frame is delivered, as 41_integrity_codec.md R95 says (log 15). -/
def frameFate (sender receiver : Params) (q : List Byte) : FrameFate :=
  if receiver.legalLength (q.length + 2) then
    if receiver.bufCapacity < q.length then ⟨receiver.bufCapacity + 1, .overflow⟩
    else if crc16Of receiver.crc q = crc16Of sender.crc q then ⟨q.length + 2, .frameOk q⟩
    else ⟨q.length + 2, .frameBad⟩
  else ⟨0, .lenReject⟩

end Machine

end Sys2Proof
end

