-- ==== Sys2Proof/Safety.lean ====
section
/-!
DEFINITION. The terms claims are stated in: the invariant of the states a device reaches, runs of operations, what of a
state any later event can depend on, and the framer as a machine over lists, for an arbitrary checksum function.
-/

namespace Sys2Proof.Machine

/-- The invariant of one link's framer (10_state.md R17), for a device with the parameters `p`. `N`, "the length byte
last accepted", is not stored: it is `idx + rem` in `Data` and `idx + 2` in `Checksum`. -/
structure Framer.Inv (p : Params) (f : Framer) : Prop where
  /-- The buffer has its canonical form. -/
  bufCanonical : Memory.wf p.bufCapacity f.buf = true
  /-- R17 (c). -/
  idxInBuffer : f.idx ≤ p.bufCapacity
  /-- The cells below `idx` have been written, so that no event can depend on an unspecified cell (R15, R23). -/
  written : ∀ i, i < f.idx → (f.buf.get i).isSome = true
  /-- R17 (a), with `acc` still as the accepted length left it (R14). -/
  inData : f.st = .data →
    3 ≤ f.rem.toNat ∧ p.legalLength (f.idx + f.rem.toNat) = true ∧ f.idx + f.rem.toNat ≤ 255 ∧ f.acc = 0
  /-- R17 (b). -/
  inChecksum : f.st = .checksum →
    (f.rem = 2#8 ∧ f.acc = 0 ∨ f.rem = 1#8 ∧ f.acc.toNat < 256) ∧
      1 ≤ f.idx ∧ p.legalLength (f.idx + 2) = true ∧ f.idx + 2 ≤ 255

/-- The invariant of the block: both links' (10_state.md R17). -/
def State.Inv (s : State) : Prop := ∀ l, (s.link l).Inv s.params

/-- Both buffers have their canonical form. -/
def State.buffersWf (s : State) : Prop := ∀ l, Memory.wf s.params.bufCapacity (s.link l).buf = true

/-- Performs one operation: it is presented, and the step runs it. -/
def perform (s : State) (r : Request) : Outcome := step (s.present r)

/-- Performs operations one after another: what each yielded and the state after the last; none where one of them
stops. -/
def performs : State → List Request → Option (List Result × State)
  | s, [] => some ([], s)
  | s, r :: rs =>
    match perform s r with
    | .next t => (performs t rs).map fun q => (t.out :: q.1, q.2)
    | .fault _ => none
    | .refused _ => none

/-- The operations by which bytes arrive on a link, in arrival order (20_memory.md R42). -/
def rxBytes (l : Link) (bytes : List Byte) : List Request := bytes.map (Request.rxbyte l)

/-- What an operation on link `l` yields: the event `e` of that link. -/
def Result.ofLink (l : Link) (e : Event) : Result := .event (some l) e

/-- Whether an operation is addressed to link `l`. -/
def onLink (l : Link) : Request → Bool
  | .rxbyte l' _ => decide (l' = l)
  | .sreset l' => decide (l' = l)
  | .hreset => false
  | .txenc _ => false
  | .crc16 _ => false
  | .crcupd _ _ => false
  | .verify _ _ => false

/-- Whether a result belongs to link `l`. -/
def Result.isOfLink (l : Link) : Result → Bool
  | .event l' _ => decide (l' = some l)
  | .frame _ => false
  | .word _ => false
  | .verdict _ => false

/-- What of a framer any later event can depend on: `st`, and outside `Reset` the countdown, the index, the accumulator
and the bytes written below the index (10_state.md R15, R23, U13). -/
structure Framer.Agrees (f g : Framer) : Prop where
  st : f.st = g.st
  rem : f.st ≠ .reset → f.rem = g.rem
  idx : f.st ≠ .reset → f.idx = g.idx
  acc : f.st ≠ .reset → f.acc = g.acc
  cells : f.st ≠ .reset → ∀ i, i < f.idx → f.buf.get i = g.buf.get i

/-- Two states of one device that no later event can tell apart: unwritten cells, cells at or past the index, and in
`Reset` the dead registers may differ. -/
structure State.Agrees (s u : State) : Prop where
  params : s.params = u.params
  hresetDone : s.hresetDone = u.hresetDone
  links : ∀ l, (s.link l).Agrees (u.link l)

/-- The framer of one link as a machine over lists, without registers: idle, inside a payload with `rem` bytes of the
frame still to come, or inside the checksum with its high byte perhaps taken (30_encoding.md R50, R56). -/
inductive AFramer where
  | idle
  | payload (rem : Nat) (got : List Byte)
  | checksum (got : List Byte) (high : Option Byte)
deriving DecidableEq, Repr

/-- One byte on the framer over lists, for ANY checksum function `ck` ("an uninterpreted deterministic function",
41_integrity_codec.md R90, U1). -/
def AFramer.step (p : Params) (ck : List Byte → U16) (a : AFramer) (b : Byte) : AFramer × Event :=
  match a with
  | .idle => if p.legalLength b.toNat then (.payload b.toNat [], .none) else (.idle, .lenReject)
  | .payload rem got =>
    if p.bufCapacity ≤ got.length then (.idle, .overflow)
    else if rem = 3 then (.checksum (got ++ [b]) none, .none)
    else (.payload (rem - 1) (got ++ [b]), .none)
  | .checksum got none => (.checksum got (some b), .none)
  | .checksum got (some hi) => (.idle, if ck got = hi ++ b then .frameOk got else .frameBad)

/-- The events of bytes fed to the framer over lists, and where it ends. -/
def AFramer.feed (p : Params) (ck : List Byte → U16) : AFramer → List Byte → List Event × AFramer
  | a, [] => ([], a)
  | a, b :: bs =>
    ((a.step p ck b).2 :: (AFramer.feed p ck (a.step p ck b).1 bs).1, (AFramer.feed p ck (a.step p ck b).1 bs).2)

/-- The framer over lists that a link's registers and buffer stand for. -/
def State.abstractLink (s : State) (l : Link) : AFramer :=
  match (s.link l).st with
  | .reset => .idle
  | .data => .payload (s.link l).rem.toNat ((List.range (s.link l).idx).map (s.cell l))
  | .checksum =>
    .checksum ((List.range (s.link l).idx).map (s.cell l))
      (if (s.link l).rem = 2#8 then none else some ((s.link l).acc.setWidth 8))

end Sys2Proof.Machine
end

