-- ==== Sys2Proof/Laws/State.lean ====
section
/-!
SUPPORT. What each accessor and update of the state reads and leaves, by definition.
-/

namespace Sys2Proof.Machine

variable (s : State) (l : Link) (f : Framer) (i : Nat) (v b : Byte)

theorem Link.other_ne : l.other ≠ l := by cases l <;> decide

@[simp] theorem Link.other_other : l.other.other = l := by cases l <;> rfl

@[simp] theorem setLink_link : (s.setLink l f).link l = f := by cases l <;> rfl

@[simp] theorem setLink_other : (s.setLink l f).link l.other = s.link l.other := by cases l <;> rfl

theorem setLink_of_ne (l' : Link) (h : l' ≠ l) : (s.setLink l f).link l' = s.link l' := by
  cases l <;> cases l' <;> first | rfl | exact absurd rfl h

@[simp] theorem setLink_params : (s.setLink l f).params = s.params := by cases l <;> rfl
@[simp] theorem setLink_hresetDone : (s.setLink l f).hresetDone = s.hresetDone := by cases l <;> rfl
@[simp] theorem setLink_epoch : (s.setLink l f).epoch = s.epoch := by cases l <;> rfl
@[simp] theorem setLink_out : (s.setLink l f).out = s.out := by cases l <;> rfl
@[simp] theorem setLink_inbox : (s.setLink l f).inbox = s.inbox := by cases l <;> rfl
@[simp] theorem setLink_setLink (g : Framer) : (s.setLink l f).setLink l g = s.setLink l g := by
  cases l <;> rfl
@[simp] theorem setLink_same : s.setLink l (s.link l) = s := by cases l <;> rfl

@[simp] theorem withOut_link (r : Result) (l' : Link) : (s.withOut r).link l' = s.link l' := by cases l' <;> rfl
@[simp] theorem withOut_params (r : Result) : (s.withOut r).params = s.params := rfl
@[simp] theorem withOut_hresetDone (r : Result) : (s.withOut r).hresetDone = s.hresetDone := rfl
@[simp] theorem withOut_epoch (r : Result) : (s.withOut r).epoch = s.epoch := rfl
@[simp] theorem withOut_out (r : Result) : (s.withOut r).out = r := rfl
@[simp] theorem withOut_inbox (r : Result) : (s.withOut r).inbox = s.inbox := rfl
@[simp] theorem withOut_cell (r : Result) : (s.withOut r).cell l i = s.cell l i := by cases l <;> rfl
@[simp] theorem withOut_view (r : Result) : (s.withOut r).view = s.view := by funext l; cases l <;> rfl
@[simp] theorem withOut_withOut (r r' : Result) : (s.withOut r).withOut r' = s.withOut r' := rfl
theorem setLink_withOut (r : Result) : (s.withOut r).setLink l f = (s.setLink l f).withOut r := by cases l <;> rfl

variable (q : List (List Request))

@[simp] theorem takeInstant_link (l' : Link) : (s.takeInstant q).link l' = s.link l' := by cases l' <;> rfl
@[simp] theorem takeInstant_params : (s.takeInstant q).params = s.params := rfl
@[simp] theorem takeInstant_hresetDone : (s.takeInstant q).hresetDone = s.hresetDone := rfl
@[simp] theorem takeInstant_epoch : (s.takeInstant q).epoch = s.epoch := rfl
@[simp] theorem takeInstant_out : (s.takeInstant q).out = s.out := rfl
@[simp] theorem takeInstant_inbox : (s.takeInstant q).inbox = q := rfl
@[simp] theorem takeInstant_view : (s.takeInstant q).view = s.view := by funext l; cases l <;> rfl
@[simp] theorem takeInstant_cell : (s.takeInstant q).cell l i = s.cell l i := by cases l <;> rfl

variable (r : Request)

@[simp] theorem present_link (l' : Link) : (s.present r).link l' = s.link l' := by cases l' <;> rfl
@[simp] theorem present_params : (s.present r).params = s.params := rfl
@[simp] theorem present_hresetDone : (s.present r).hresetDone = s.hresetDone := rfl
@[simp] theorem present_epoch : (s.present r).epoch = s.epoch := rfl
@[simp] theorem present_out : (s.present r).out = s.out := rfl
@[simp] theorem present_inbox : (s.present r).inbox = [r] :: s.inbox := rfl
@[simp] theorem present_view : (s.present r).view = s.view := by funext l; cases l <;> rfl
@[simp] theorem present_takeInstant : (s.present r).takeInstant s.inbox = s := rfl

@[simp] theorem view_st : (s.view l).st = (s.link l).st := rfl
@[simp] theorem view_idx : (s.view l).idx = (s.link l).idx := rfl

@[simp] theorem startFrame_st (n : Byte) : (f.startFrame n).st = .data := rfl
@[simp] theorem startFrame_rem (n : Byte) : (f.startFrame n).rem = n := rfl
@[simp] theorem startFrame_idx (n : Byte) : (f.startFrame n).idx = 0 := rfl
@[simp] theorem startFrame_acc (n : Byte) : (f.startFrame n).acc = 0 := rfl
@[simp] theorem startFrame_buf (n : Byte) : (f.startFrame n).buf = f.buf := rfl

@[simp] theorem bufWrite_st : (f.bufWrite i v).st = f.st := rfl
@[simp] theorem bufWrite_rem : (f.bufWrite i v).rem = f.rem := rfl
@[simp] theorem bufWrite_idx : (f.bufWrite i v).idx = f.idx := rfl
@[simp] theorem bufWrite_acc : (f.bufWrite i v).acc = f.acc := rfl
@[simp] theorem bufWrite_buf : (f.bufWrite i v).buf = Memory.set f.buf i v := rfl

@[simp] theorem storeByte_st : (f.storeByte b).st = stAfterStore (f.rem - 1#8) := rfl
@[simp] theorem storeByte_rem : (f.storeByte b).rem = f.rem - 1#8 := rfl
@[simp] theorem storeByte_idx : (f.storeByte b).idx = f.idx + 1 := rfl
@[simp] theorem storeByte_acc : (f.storeByte b).acc = f.acc := rfl
@[simp] theorem storeByte_buf : (f.storeByte b).buf = Memory.set f.buf f.idx b := rfl

@[simp] theorem toReset_st : f.toReset.st = .reset := rfl
@[simp] theorem toReset_rem : f.toReset.rem = f.rem := rfl
@[simp] theorem toReset_idx : f.toReset.idx = f.idx := rfl
@[simp] theorem toReset_acc : f.toReset.acc = f.acc := rfl
@[simp] theorem toReset_buf : f.toReset.buf = f.buf := rfl

@[simp] theorem takeChecksumByte_st : (f.takeChecksumByte b).st = f.st := rfl
@[simp] theorem takeChecksumByte_rem : (f.takeChecksumByte b).rem = f.rem - 1#8 := rfl
@[simp] theorem takeChecksumByte_idx : (f.takeChecksumByte b).idx = f.idx := rfl
@[simp] theorem takeChecksumByte_acc : (f.takeChecksumByte b).acc = accumulate f.acc b := rfl
@[simp] theorem takeChecksumByte_buf : (f.takeChecksumByte b).buf = f.buf := rfl

@[simp] theorem sessionReset_st : f.sessionReset.st = .reset := rfl
@[simp] theorem sessionReset_rem : f.sessionReset.rem = 0 := rfl
@[simp] theorem sessionReset_idx : f.sessionReset.idx = 0 := rfl
@[simp] theorem sessionReset_acc : f.sessionReset.acc = 0 := rfl
@[simp] theorem sessionReset_buf : f.sessionReset.buf = f.buf := rfl

theorem cell_def : s.cell l i = ((s.link l).buf.get i).getD (Config.unspecifiedByte s.epoch l i) := rfl

/-- The cells of a link depend on its buffer alone: an update of its registers leaves them. -/
theorem cell_setLink_of_buf (l' : Link) (h : f.buf = (s.link l).buf) : (s.setLink l f).cell l' i = s.cell l' i := by
  by_cases e : l' = l
  · subst e; simp [cell_def, h]
  · simp [cell_def, setLink_of_ne _ _ _ _ e]

end Sys2Proof.Machine
end

