-- ==== Sys2Proof/Laws/Memory.lean ====
section
/-!
SUPPORT. The laws of a receive buffer: a read after a write, the canonical form and that it makes equal buffers equal
data.
-/

namespace Sys2Proof.Machine

/-- A read after a write gives the byte written in the cell written, and leaves every other cell. -/
theorem Memory.get_set (m : Memory) (i j : Nat) (v : Byte) :
    Memory.get (Memory.set m i v) j = if j = i then some v else Memory.get m j := by
  induction m with
  | nil => simp [Memory.set, Memory.get]
  | cons c m ih =>
    obtain ⟨a, w⟩ := c
    simp only [Memory.set]
    split
    · simp [Memory.get]
    · split
      · next h => subst h; by_cases h : j = i <;> simp [Memory.get, h]
      · next h => by_cases hj : j = a
                  · subst hj; simp [Memory.get, Ne.symm h]
                  · simp [Memory.get, hj, ih]

@[simp] theorem Memory.get_set_same (m : Memory) (i : Nat) (v : Byte) :
    Memory.get (Memory.set m i v) i = some v := by simp [Memory.get_set]

theorem Memory.get_set_of_ne (m : Memory) {i j : Nat} (v : Byte) (h : j ≠ i) :
    Memory.get (Memory.set m i v) j = Memory.get m j := by simp [Memory.get_set, h]

theorem Memory.sortedFrom_mono {lo lo' : Nat} {m : Memory} (h : lo' ≤ lo) (hm : Memory.sortedFrom lo m = true) :
    Memory.sortedFrom lo' m = true := by
  cases m with
  | nil => rfl
  | cons c m =>
    simp only [Memory.sortedFrom, Bool.and_eq_true, decide_eq_true_eq] at *
    exact ⟨Nat.le_trans h hm.1, hm.2⟩

theorem Memory.sortedFrom_set {lo i : Nat} {m : Memory} (v : Byte) (hi : lo ≤ i)
    (hm : Memory.sortedFrom lo m = true) : Memory.sortedFrom lo (Memory.set m i v) = true := by
  induction m generalizing lo with
  | nil => simp [Memory.set, Memory.sortedFrom, hi]
  | cons c m ih =>
    obtain ⟨a, w⟩ := c
    simp only [Memory.sortedFrom, Bool.and_eq_true, decide_eq_true_eq] at hm
    simp only [Memory.set]
    split
    · simp [Memory.sortedFrom, hi, hm.2]; omega
    · split
      · next h => subst h; simp [Memory.sortedFrom, hi, hm.2]
      · simp only [Memory.sortedFrom, Bool.and_eq_true, decide_eq_true_eq]
        exact ⟨hm.1, ih (by omega) hm.2⟩

theorem Memory.bounded_set {cap i : Nat} {m : Memory} (v : Byte) (hi : i < cap)
    (hm : (m.all fun c => decide (c.1 < cap)) = true) :
    ((Memory.set m i v).all fun c => decide (c.1 < cap)) = true := by
  induction m with
  | nil => simp [Memory.set, hi]
  | cons c m ih =>
    simp only [List.all_cons, Bool.and_eq_true, decide_eq_true_eq] at hm
    simp only [Memory.set]
    split
    · simp [hi, hm.1]; simpa using hm.2
    · split
      · simp only [List.all_cons, Bool.and_eq_true, decide_eq_true_eq]; exact ⟨hi, hm.2⟩
      · simp only [List.all_cons, Bool.and_eq_true, decide_eq_true_eq]; exact ⟨hm.1, ih hm.2⟩

/-- A write to a cell that exists keeps the canonical form. -/
theorem Memory.wf_set {cap i : Nat} {m : Memory} (v : Byte) (hi : i < cap) (hm : Memory.wf cap m = true) :
    Memory.wf cap (Memory.set m i v) = true := by
  simp only [Memory.wf, Bool.and_eq_true] at *
  exact ⟨Memory.sortedFrom_set v (Nat.zero_le i) hm.1, Memory.bounded_set v hi hm.2⟩

/-- Nothing is listed in a buffer after `HRESET`, and that is the canonical form. -/
@[simp] theorem Memory.wf_nil (cap : Nat) : Memory.wf cap [] = true := rfl

/-- The buffers right after reset have the canonical form, whatever the device. -/
theorem resetWith_buffersWf (p : Params) : (State.resetWith p).buffersWf := fun l => by cases l <;> rfl

theorem Memory.get_of_lt {lo i : Nat} {m : Memory} (hm : Memory.sortedFrom lo m = true) (h : i < lo) :
    Memory.get m i = none := by
  induction m generalizing lo with
  | nil => rfl
  | cons c m ih =>
    obtain ⟨a, w⟩ := c
    simp only [Memory.sortedFrom, Bool.and_eq_true, decide_eq_true_eq] at hm
    have : i ≠ a := by omega
    simp [Memory.get, this, ih hm.2 (by omega)]

theorem Memory.ext_of_sorted {lo : Nat} {m m' : Memory} (hm : Memory.sortedFrom lo m = true)
    (hm' : Memory.sortedFrom lo m' = true) (h : ∀ i, Memory.get m i = Memory.get m' i) : m = m' := by
  induction m generalizing lo m' with
  | nil =>
    cases m' with
    | nil => rfl
    | cons c m' => have := h c.1; simp [Memory.get] at this
  | cons c m ih =>
    cases m' with
    | nil => have := h c.1; simp [Memory.get] at this
    | cons c' m' =>
      obtain ⟨a, w⟩ := c
      obtain ⟨a', w'⟩ := c'
      simp only [Memory.sortedFrom, Bool.and_eq_true, decide_eq_true_eq] at hm hm'
      have heq : a = a' := by
        by_contra hne
        rcases Nat.lt_or_gt_of_ne hne with hlt | hlt
        · have := h a; simp [Memory.get, hne, Memory.get_of_lt hm'.2 (show a < a' + 1 by omega)] at this
        · have := h a'; simp [Memory.get, Ne.symm hne, Memory.get_of_lt hm.2 (show a' < a + 1 by omega)] at this
      subst heq
      have hw : w = w' := by simpa [Memory.get] using h a
      subst hw
      congr 1
      refine ih hm.2 hm'.2 fun i => ?_
      by_cases hi : i = a
      · subst hi; rw [Memory.get_of_lt hm.2 (by omega), Memory.get_of_lt hm'.2 (by omega)]
      · simpa [Memory.get, hi] using h i

/-- Buffers in canonical form that read alike are equal data. -/
theorem Memory.ext {cap : Nat} {m m' : Memory} (hm : Memory.wf cap m = true) (hm' : Memory.wf cap m' = true)
    (h : ∀ i, Memory.get m i = Memory.get m' i) : m = m' := by
  simp only [Memory.wf, Bool.and_eq_true] at hm hm'
  exact Memory.ext_of_sorted hm.1 hm'.1 h

/-- The cells of a link after a byte was stored: the cell at the index holds it, every other cell is as before. -/
theorem cell_storeByte (s : State) (l l' : Link) (b : Byte) (i : Nat) :
    (s.setLink l ((s.link l).storeByte b)).cell l' i =
      if l' = l ∧ i = (s.link l).idx then b else s.cell l' i := by
  by_cases e : l' = l
  · subst e
    by_cases hi : i = (s.link l').idx
    · simp [cell_def, hi]
    · simp [cell_def, hi, Memory.get_set_of_ne _ _ hi]
  · simp [cell_def, setLink_of_ne _ _ _ _ e, e]

end Sys2Proof.Machine
end

