-- ==== Sys2Proof/Laws/Ops.lean ====
section
/-!
SUPPORT. For each shared operation, once, everything it can do; and from them what a performed operation can do.
-/

namespace Sys2Proof.Machine

theorem yields_next {s t : State} {r : Result} : yields s r = .next t ↔ t = s.withOut r := by
  simp only [yields, Host.Outcome.next.injEq]; exact eq_comm

theorem emit_next {s t : State} {l : Option Link} {e : Event} :
    emit s l e = .next t ↔ t = s.withOut (.event l e) := yields_next

theorem raiseError_next {s t : State} {l : Option Link} {e : Event} :
    raiseError s l e = .next t ↔ t = s.withOut (.event l e) := yields_next

/-- A case of `RXBYTE` takes a next state exactly when an `HRESET` was applied, its row is selected, and its body
takes that state. -/
theorem guardRx_next {i : Instr} {s t : State} {k : Outcome} :
    guardRx i s k = .next t ↔ s.hresetDone = true ∧ i.selected s.params s.view = true ∧ k = .next t := by
  unfold guardRx
  cases hd : s.hresetDone <;> cases hs : i.selected s.params s.view <;> simp

theorem guardRx_of_selected {i : Instr} {s : State} {k : Outcome} (hd : s.hresetDone = true)
    (hs : i.selected s.params s.view = true) : guardRx i s k = k := by simp [guardRx, hd, hs]

theorem bufSlice_eq_some {s : State} {l : Link} {n : Nat} {p : List Byte} :
    s.bufSlice l n = some p ↔ n ≤ s.params.bufCapacity ∧ p = (List.range n).map (s.cell l) := by
  unfold State.bufSlice; split <;> simp_all [eq_comm]

@[simp] theorem bufRead_eq_some {s : State} {l : Link} {i : Nat} {v : Byte} :
    s.bufRead l i = some v ↔ i < s.params.bufCapacity ∧ s.cell l i = v := by
  unfold State.bufRead; split <;> simp_all

/-- `VERIFY` compares all 16 bits (41_integrity_codec.md R94). -/
@[simp] theorem verifyOf_eq_true {k : CrcParams} {xs : List Byte} {r : U16} :
    verifyOf k xs r = true ↔ crc16Of k xs = r := by simp [verifyOf]

/-- Everything a completion can do, where the index is within the buffer. -/
theorem complete_eq {s : State} {l : Link} (h : (s.link l).idx ≤ s.params.bufCapacity) :
    complete s l = .next
      ((s.setLink l (s.link l).toReset).withOut (.event (some l)
        (if crc16Of s.params.crc ((List.range (s.link l).idx).map (s.cell l)) = (s.link l).acc then
          .frameOk ((List.range (s.link l).idx).map (s.cell l))
        else .frameBad))) := by
  simp only [complete, State.bufSlice, h, if_true]
  by_cases hv : crc16Of s.params.crc ((List.range (s.link l).idx).map (s.cell l)) = (s.link l).acc <;>
    simp [verifyOf, hv, emit, raiseError, yields]

theorem complete_fault {s : State} {l : Link} (h : s.params.bufCapacity < (s.link l).idx) :
    complete s l = .fault .bufferReadOutOfRange := by
  simp [complete, State.bufSlice, Nat.not_le.mpr h]

/-- A completion that takes a next state had its index within the buffer. -/
theorem complete_next_idx {s t : State} {l : Link} (h : complete s l = .next t) :
    (s.link l).idx ≤ s.params.bufCapacity := by
  by_contra hn
  rw [complete_fault (Nat.lt_of_not_le hn)] at h
  cases h

theorem legalLength_iff {p : Params} {n : Nat} : p.legalLength n = true ↔ 3 ≤ n ∧ n < p.maxPacketSize := by
  simp [Params.legalLength]

/-- The next step after an operation is presented performs the row it decodes to. -/
theorem perform_eq (s : State) (r : Request) : perform s r = exec (decode s.params s.view r) s := by
  simp [perform, step, State.present, fetch, decodeInstant, State.takeInstant]
  rfl

section
variable {p : Params} {v : Link → RxView} {l : Link} {b : Byte}

theorem decode_rxbyte_accept (hst : (v l).st = .reset) (hl : p.legalLength b.toNat = true) :
    decode p v (.rxbyte l b) = .rxbyteLenAccept l b := by simp [decode, decodeRx, hst, hl]

theorem decode_rxbyte_reject (hst : (v l).st = .reset) (hl : p.legalLength b.toNat = false) :
    decode p v (.rxbyte l b) = .rxbyteLenReject l b := by simp [decode, decodeRx, hst, hl]

theorem decode_rxbyte_store (hst : (v l).st = .data) (hi : (v l).idx < p.bufCapacity) :
    decode p v (.rxbyte l b) = .rxbyteDataStore l b := by simp [decode, decodeRx, hst, hi]

theorem decode_rxbyte_overflow (hst : (v l).st = .data) (hi : p.bufCapacity ≤ (v l).idx) :
    decode p v (.rxbyte l b) = .rxbyteDataOverflow l b := by simp [decode, decodeRx, hst, hi]

theorem decode_rxbyte_cks (hst : (v l).st = .checksum) :
    decode p v (.rxbyte l b) = .rxbyteCks l b := by simp [decode, decodeRx, hst]

end

/-- Everything that `RXBYTE(L, b)` can do when it takes a next state: its five cases, the last of them with and without
a completion (40_rx_framer.md R70 to R76). -/
theorem rxbyte_cases {s t : State} {l : Link} {b : Byte} (h : perform s (.rxbyte l b) = .next t) :
    s.hresetDone = true ∧
    ( ((s.link l).st = .reset ∧ s.params.legalLength b.toNat = true ∧
        t = (s.setLink l ((s.link l).startFrame b)).withOut (.event (some l) .none))
    ∨ ((s.link l).st = .reset ∧ s.params.legalLength b.toNat = false ∧
        t = s.withOut (.event (some l) .lenReject))
    ∨ ((s.link l).st = .data ∧ (s.link l).idx < s.params.bufCapacity ∧
        t = (s.setLink l ((s.link l).storeByte b)).withOut (.event (some l) .none))
    ∨ ((s.link l).st = .data ∧ s.params.bufCapacity ≤ (s.link l).idx ∧
        t = (s.setLink l (s.link l).toReset).withOut (.event (some l) .overflow))
    ∨ ((s.link l).st = .checksum ∧ (s.link l).rem - 1#8 ≠ 0#8 ∧
        t = (s.setLink l ((s.link l).takeChecksumByte b)).withOut (.event (some l) .none))
    ∨ ((s.link l).st = .checksum ∧ (s.link l).rem - 1#8 = 0#8 ∧ (s.link l).idx ≤ s.params.bufCapacity ∧
        t = (s.setLink l ((s.link l).takeChecksumByte b).toReset).withOut (.event (some l)
          (if crc16Of s.params.crc ((List.range (s.link l).idx).map (s.cell l)) = accumulate (s.link l).acc b then
            .frameOk ((List.range (s.link l).idx).map (s.cell l))
          else .frameBad))) ) := by
  rw [perform_eq] at h
  cases hst : (s.link l).st
  case reset =>
    cases hl : s.params.legalLength b.toNat
    · rw [decode_rxbyte_reject hst hl] at h
      obtain ⟨hd, -, hk⟩ := guardRx_next.mp h
      simp [hd, raiseError_next.mp hk]
    · rw [decode_rxbyte_accept hst hl] at h
      obtain ⟨hd, -, hk⟩ := guardRx_next.mp h
      simp [hd, emit_next.mp hk]
  case data =>
    by_cases hi : (s.link l).idx < s.params.bufCapacity
    · rw [decode_rxbyte_store hst hi] at h
      obtain ⟨hd, -, hk⟩ := guardRx_next.mp h
      simp [hd, hi, emit_next.mp hk]
    · rw [decode_rxbyte_overflow hst (Nat.not_lt.mp hi)] at h
      obtain ⟨hd, -, hk⟩ := guardRx_next.mp h
      simp [hd, Nat.not_lt.mp hi, raiseError_next.mp hk]
  case checksum =>
    rw [decode_rxbyte_cks hst] at h
    obtain ⟨hd, -, hk⟩ := guardRx_next.mp h
    by_cases hr : (s.link l).rem - 1#8 = 0#8
    · have hf : frameEnds ((s.link l).takeChecksumByte b).rem = true := decide_eq_true hr
      rw [if_pos hf] at hk
      have hi := complete_next_idx hk
      have hcells : (s.setLink l ((s.link l).takeChecksumByte b)).cell l = s.cell l :=
        funext fun i => cell_setLink_of_buf _ _ _ _ _ rfl
      rw [complete_eq hi, hcells, Host.Outcome.next.injEq] at hk
      simp only [setLink_link, takeChecksumByte_idx, setLink_params] at hi
      simp [hd, hr, hi, ← hk]
    · have hf : frameEnds ((s.link l).takeChecksumByte b).rem = false := decide_eq_false hr
      rw [if_neg (Bool.not_eq_true _ ▸ hf)] at hk
      simp [hd, hr, emit_next.mp hk]

/-- `SRESET` takes a next state from every state (43_session_control.md R120). -/
theorem perform_sreset (s : State) (l : Link) :
    perform s (.sreset l) =
      .next ((s.setLink l (s.link l).sessionReset).withOut (.event (some l) .none)) := by
  rw [perform_eq]; rfl

/-- Everything an operation other than `RXBYTE`, `SRESET` and `HRESET` can do when it takes a next state: it changes
what is yielded, which belongs to no link, and nothing else. -/
theorem stateless_next {s t : State} {r : Request} (h : perform s r = .next t) :
    (∃ l b, r = .rxbyte l b) ∨ (∃ l, r = .sreset l) ∨ r = .hreset ∨
    ((∀ l, onLink l r = false) ∧ t = s.withOut t.out ∧ ∀ l, t.out.isOfLink l = false) := by
  rw [perform_eq] at h
  cases r with
  | rxbyte l b => exact .inl ⟨l, b, rfl⟩
  | sreset l => exact .inr (.inl ⟨l, rfl⟩)
  | hreset => exact .inr (.inr (.inl rfl))
  | txenc p =>
    simp only [decode, exec, execTxenc] at h
    split at h
    · rw [yields_next.mp h]; exact .inr (.inr (.inr ⟨fun _ => rfl, rfl, fun _ => rfl⟩))
    · rw [raiseError_next.mp h]; exact .inr (.inr (.inr ⟨fun _ => rfl, rfl, fun l => by simp [Result.isOfLink]⟩))
  | crc16 xs => rw [yields_next.mp h]; exact .inr (.inr (.inr ⟨fun _ => rfl, rfl, fun _ => rfl⟩))
  | crcupd c b => rw [yields_next.mp h]; exact .inr (.inr (.inr ⟨fun _ => rfl, rfl, fun _ => rfl⟩))
  | verify xs c => rw [yields_next.mp h]; exact .inr (.inr (.inr ⟨fun _ => rfl, rfl, fun _ => rfl⟩))

/-- Everything a step can do when it takes a next state: nothing is presented, an empty instant is taken, or one operation
is performed. -/
theorem step_cases {s t : State} (h : step s = .next t) :
    (s.inbox = [] ∧ t = s) ∨ (∃ rest, s.inbox = [] :: rest ∧ t = s.takeInstant rest) ∨
    ∃ r rest, s.inbox = [r] :: rest ∧ perform (s.takeInstant rest) r = .next t := by
  unfold step at h
  split at h
  · next hi => cases h; exact .inl ⟨hi, rfl⟩
  · next instant rest hi =>
    match instant with
    | [] =>
      simp only [fetch, decodeInstant, Host.Outcome.next.injEq] at h
      exact .inr (.inl ⟨rest, hi, h.symm⟩)
    | [r] =>
      refine .inr (.inr ⟨r, rest, hi, ?_⟩)
      rw [perform_eq]
      simpa [fetch, decodeInstant] using h
    | _ :: _ :: _ => simp [fetch, decodeInstant] at h

/-- Everything that can become of a frame of another device at a receiver in `Reset` (70_reset_and_hazards.md R160). -/
theorem frameFate_cases (sender receiver : Params) (q : List Byte) :
    (receiver.legalLength (q.length + 2) = false ∧ frameFate sender receiver q = ⟨0, .lenReject⟩) ∨
    (receiver.legalLength (q.length + 2) = true ∧ receiver.bufCapacity < q.length ∧
      frameFate sender receiver q = ⟨receiver.bufCapacity + 1, .overflow⟩) ∨
    (receiver.legalLength (q.length + 2) = true ∧ q.length ≤ receiver.bufCapacity ∧
      frameFate sender receiver q = ⟨q.length + 2,
        if crc16Of receiver.crc q = crc16Of sender.crc q then .frameOk q else .frameBad⟩) := by
  cases hl : receiver.legalLength (q.length + 2)
  · simp [frameFate, hl]
  · by_cases hb : receiver.bufCapacity < q.length
    · simp [frameFate, hl, hb]
    · have hle := Nat.not_lt.mp hb
      by_cases hc : crc16Of receiver.crc q = crc16Of sender.crc q <;> simp [frameFate, hl, hb, hc, hle]

/-- What being built alike says (70_reset_and_hazards.md R160). -/
theorem builtAlike_iff {sender receiver : Params} : sender.builtAlike receiver = true ↔
    sender.crc = receiver.crc ∧ sender.maxPacketSize ≤ receiver.maxPacketSize ∧
      sender.maxPacketSize ≤ receiver.bufCapacity + 3 := by
  simp [Params.builtAlike, Params.checksumsAlike, Params.lengthsFit, Params.payloadsFit, and_assoc]

theorem performs_nil (s : State) : performs s [] = some ([], s) := rfl

theorem performs_cons (s : State) (r : Request) (rs : List Request) {xs : List Result} {u : State} :
    performs s (r :: rs) = some (xs, u) ↔
      ∃ t ys, perform s r = .next t ∧ performs t rs = some (ys, u) ∧ xs = t.out :: ys := by
  simp only [performs]
  cases h : perform s r with
  | next t =>
    simp only [Option.map_eq_some_iff, Prod.mk.injEq, Prod.exists, Host.Outcome.next.injEq]
    constructor
    · rintro ⟨ys, v, hp, rfl, rfl⟩; exact ⟨t, ys, rfl, hp, rfl⟩
    · rintro ⟨t', ys, rfl, hp, rfl⟩; exact ⟨ys, u, hp, rfl, rfl⟩
  | fault r => simp
  | refused r => simp

end Sys2Proof.Machine
end

