-- ==== Sys2Proof/Laws/PerInstr.lean ====
section
/-!
SUPPORT. Statements about every operation as syntax, one lemma for each constructor.
-/

namespace Sys2Proof.Laws.SelectedIsWellFormed

/-- A row that the table selects (30_encoding.md R62) is well formed for the device. -/
def Statement (i : Instr) : Prop :=
  ∀ (p : Params) (view : Link → RxView), i.selected p view = true → i.wf p = true

theorem rxbyteLenAccept (l : Link) (n : Byte) : Statement (.rxbyteLenAccept l n) := fun p v h => by
  simp only [Instr.selected, Bool.and_eq_true] at h
  exact h.2

theorem rxbyteLenReject (l : Link) (n : Byte) : Statement (.rxbyteLenReject l n) := fun p v h => by
  simp only [Instr.selected, Bool.and_eq_true] at h
  exact h.2

theorem rxbyteDataStore (l : Link) (b : Byte) : Statement (.rxbyteDataStore l b) := fun _ _ _ => rfl
theorem rxbyteDataOverflow (l : Link) (b : Byte) : Statement (.rxbyteDataOverflow l b) := fun _ _ _ => rfl
theorem rxbyteCks (l : Link) (b : Byte) : Statement (.rxbyteCks l b) := fun _ _ _ => rfl
theorem sreset (l : Link) : Statement (.sreset l) := fun _ _ _ => rfl
theorem hreset : Statement .hreset := fun _ _ _ => rfl
theorem txenc (p : List Byte) : Statement (.txenc p) := fun _ _ _ => rfl
theorem crc16 (xs : List Byte) : Statement (.crc16 xs) := fun _ _ _ => rfl
theorem crcupd (c : U16) (b : Byte) : Statement (.crcupd c b) := fun _ _ _ => rfl
theorem verify (xs : List Byte) (r : U16) : Statement (.verify xs r) := fun _ _ _ => rfl

end Sys2Proof.Laws.SelectedIsWellFormed
end

