-- ==== Sys2Proof/Certificates/Slice0/Obligations.lean ====
section
/-!
DEFINITION. The statements for the provers. Every one quantifies over the state, and with it over the parameters of the
device (00_scope.md R5 to R7), the contents of the buffers and the free bytes.
-/

open Sys2Proof Sys2Proof.Machine

/-! ### What each operation does -/

/-- R71: a legal length byte received in `Reset` starts a frame, and nothing else changes (the buffer is not cleared). -/
def Obligations.LegalLengthStartsFrame : Prop :=
  ∀ (l : Link) (n : Byte) (s : State),
    s.hresetDone = true → (s.link l).st = .reset → 3 ≤ n.toNat → n.toNat < s.params.maxPacketSize →
    exec (.rxbyteLenAccept l n) s = .next
      ((s.setLink l { s.link l with idx := 0, acc := 0x0000#16, rem := n, st := .data }).withOut
        (.event (some l) .none))

/-- R72: an illegal length byte received in `Reset` changes no state element and yields `EV_LEN_REJECT`. -/
def Obligations.IllegalLengthChangesNothing : Prop :=
  ∀ (l : Link) (n : Byte) (s : State),
    s.hresetDone = true → (s.link l).st = .reset → (n.toNat < 3 ∨ s.params.maxPacketSize ≤ n.toNat) →
    exec (.rxbyteLenReject l n) s = .next (s.withOut (.event (some l) .lenReject))

/-- R73: a payload byte is stored at the index, the index goes up, the countdown goes down modulo 256, and the framer
goes to `Checksum` exactly when the countdown becomes 2. -/
def Obligations.PayloadByteIsStored : Prop :=
  ∀ (l : Link) (b : Byte) (s : State),
    s.hresetDone = true → (s.link l).st = .data → (s.link l).idx < s.params.bufCapacity →
    exec (.rxbyteDataStore l b) s = .next
      ((s.setLink l
        { s.link l with
          buf := Memory.set (s.link l).buf (s.link l).idx b
          idx := (s.link l).idx + 1
          rem := (s.link l).rem - 1#8
          st := if (s.link l).rem - 1#8 = 2#8 then .checksum else .data }).withOut
        (.event (some l) .none))

/-- R74: a payload byte that finds the buffer full is discarded: `st` goes to `Reset`, nothing else changes, and the
event is `EV_OVERFLOW`. -/
def Obligations.FullBufferOverflows : Prop :=
  ∀ (l : Link) (b : Byte) (s : State),
    s.hresetDone = true → (s.link l).st = .data → s.params.bufCapacity ≤ (s.link l).idx →
    exec (.rxbyteDataOverflow l b) s = .next
      ((s.setLink l { s.link l with st := .reset }).withOut (.event (some l) .overflow))

/-- The first part of R75: a checksum byte that does not end the frame is shifted into the accumulator, and the framer
stays in `Checksum`. -/
def Obligations.ChecksumByteAccumulates : Prop :=
  ∀ (l : Link) (b : Byte) (s : State),
    s.hresetDone = true → (s.link l).st = .checksum → (s.link l).rem ≠ 1#8 →
    exec (.rxbyteCks l b) s = .next
      ((s.setLink l
        { s.link l with
          acc := ((s.link l).acc <<< 8) ||| b.setWidth 16
          rem := (s.link l).rem - 1#8 }).withOut
        (.event (some l) .none))

/-- R76 and R95, after the accumulation of R75: the checksum byte that takes the countdown to 0 completes the frame; `st`
is `Reset`, and the payload `buf[0..idx)` is delivered exactly when its checksum equals the received one. The premise
`idx <= BUF_CAPACITY` is the range of `idx` (10_state.md R13). -/
def Obligations.LastChecksumByteCompletes : Prop :=
  ∀ (l : Link) (b : Byte) (s : State),
    s.hresetDone = true → (s.link l).st = .checksum → (s.link l).rem = 1#8 →
    (s.link l).idx ≤ s.params.bufCapacity →
    exec (.rxbyteCks l b) s = .next
      ((s.setLink l
        { s.link l with
          acc := ((s.link l).acc <<< 8) ||| b.setWidth 16
          rem := 0#8
          st := .reset }).withOut
        (.event (some l)
          (if crc16Of s.params.crc ((List.range (s.link l).idx).map (s.cell l))
              = ((s.link l).acc <<< 8) ||| b.setWidth 16 then
            .frameOk ((List.range (s.link l).idx).map (s.cell l))
          else .frameBad)))

/-- R120 and R122: a session reset, in every state, clears `st`, `rem`, `idx` and `acc` of its link, does not write the
buffer, and touches nothing else. -/
def Obligations.SessionResetClearsOneLink : Prop :=
  ∀ (l : Link) (s : State),
    exec (.sreset l) s = .next
      ((s.setLink l { s.link l with st := .reset, rem := 0#8, idx := 0, acc := 0x0000#16 }).withOut
        (.event (some l) .none))

/-- R150: the platform's reset, in every state, puts both links in the reset state and yields `EV_NONE`; no cell of
either buffer is known afterwards, and the parameters stay. -/
def Obligations.HardResetClearsBothLinks : Prop :=
  ∀ (s : State), ∃ t, exec .hreset s = .next t ∧ t.out = .event none .none ∧ t.hresetDone = true ∧
    t.params = s.params ∧ t.inbox = s.inbox ∧
    ∀ l, (t.link l).st = .reset ∧ (t.link l).rem = 0#8 ∧ (t.link l).idx = 0 ∧ (t.link l).acc = 0x0000#16 ∧
      ∀ i, (t.link l).buf.get i = none

/-- R110: `TXENC` of a payload of `1..MAX_PACKET_SIZE-3` bytes returns `N = len + 2`, the payload and the checksum high
byte first, `N + 1` bytes, and changes nothing. -/
def Obligations.TxencReturnsTheFrame : Prop :=
  ∀ (p : List Byte) (s : State),
    s.params.wf = true → 1 ≤ p.length → p.length ≤ s.params.maxPacketSize - 3 →
    ∃ N : Byte, N.toNat = p.length + 2 ∧
      exec (.txenc p) s = .next (s.withOut (.frame
        ([N] ++ p ++ [(crc16Of s.params.crc p).extractLsb' 8 8, (crc16Of s.params.crc p).extractLsb' 0 8]))) ∧
      ([N] ++ p ++ [(crc16Of s.params.crc p).extractLsb' 8 8,
        (crc16Of s.params.crc p).extractLsb' 0 8]).length = N.toNat + 1

/-- R111: `TXENC` refuses a payload it cannot frame: no bytes, `EV_TX_REFUSED`, and no change. -/
def Obligations.TxencRefusesUnframeablePayload : Prop :=
  ∀ (p : List Byte) (s : State),
    s.params.wf = true → (p.length = 0 ∨ s.params.maxPacketSize - 3 < p.length) →
    exec (.txenc p) s = .next (s.withOut (.event none .txRefused))

/-- R91: `CRC16` is the fold of `CRCUPD` over the bytes from `CRC_INIT`, reflected if `CRC_REFOUT`, exclusive-or
`CRC_XOROUT`; and what reflection is. -/
def Obligations.Crc16ReturnsTheFold : Prop :=
  (∀ (xs : List Byte) (s : State),
    exec (.crc16 xs) s = .next (s.withOut (.word
      ((if s.params.crc.refout then reflect16 (xs.foldl (crcUpd s.params.crc) s.params.crc.init)
        else xs.foldl (crcUpd s.params.crc) s.params.crc.init) ^^^ s.params.crc.xorout)))) ∧
  (∀ (v : U16) (i : Nat), i < 16 → (reflect16 v).getLsbD i = v.getLsbD (15 - i)) ∧
  ∀ (v : Byte) (i : Nat), i < 8 → (reflect8 v).getLsbD i = v.getLsbD (7 - i)

/-- R92: `CRCUPD` is the bit-serial step, and it equals the table form, the table being the loop started from `i << 8`. -/
def Obligations.CrcUpdIsTheByteStepAndItsTable : Prop :=
  (∀ (c : U16) (b : Byte) (s : State),
    exec (.crcupd c b) s = .next (s.withOut (.word
      ((fun r : U16 => if r.getLsbD 15 then (r <<< 1) ^^^ s.params.crc.poly else r <<< 1)^[8]
        (c ^^^ ((if s.params.crc.refin then reflect8 b else b).setWidth 16 <<< 8))))) ∧
    exec (.crcupd c b) s = .next (s.withOut (.word
      ((c <<< 8) ^^^ crcTable s.params.crc.poly
        ((c >>> 8).setWidth 8 ^^^ (if s.params.crc.refin then reflect8 b else b)))))) ∧
  ∀ (poly : U16) (i : Byte), crcTable poly i =
    (fun r : U16 => if r.getLsbD 15 then (r <<< 1) ^^^ poly else r <<< 1)^[8] (i.setWidth 16 <<< 8)

/-- R94: `VERIFY` recomputes and compares all 16 bits. -/
def Obligations.VerifyComparesTheChecksum : Prop :=
  ∀ (xs : List Byte) (r : U16) (s : State),
    exec (.verify xs r) s = .next (s.withOut (.verdict (decide (crc16Of s.params.crc xs = r))))

/-! ### Where a step or an operation stops -/

/-- An `RXBYTE` row executed in a state that does not select it is refused by name. The refusal is the model's choice
(log 10): in that state `RXBYTE` is another row. -/
def Obligations.UnselectedCaseIsRefused : Prop :=
  ∀ (l : Link) (b : Byte) (s : State),
    ∀ i ∈ [Instr.rxbyteLenAccept l b, .rxbyteLenReject l b, .rxbyteDataStore l b, .rxbyteDataOverflow l b,
        .rxbyteCks l b],
      s.hresetDone = true → i.selected s.params s.view = false → exec i s = .refused .caseNotSelected

/-- "a run that issues `RXBYTE` before `HRESET` has no meaning" (93_implementation_defined.md U6): it is refused. -/
def Obligations.ReceiveBeforeHresetIsRefused : Prop :=
  ∀ (l : Link) (b : Byte) (s : State), s.hresetDone = false →
    perform s (.rxbyte l b) = .refused .rxBeforeHreset

/-- "simultaneous requests are outside the spec and a model refuses them" (92_eei_decisions.md D21). -/
def Obligations.SimultaneousOperationsAreRefused : Prop :=
  ∀ (s : State) (r r' : Request) (rs : List Request) (rest : List (List Request)),
    s.inbox = (r :: r' :: rs) :: rest → step s = .refused .simultaneousOperations

/-- A completion whose `idx` exceeds the buffer faults: it would read a cell that does not exist. The fault is the
model's choice (log 5); no state of the spec has such an `idx` (10_state.md R13). -/
def Obligations.CompletionPastTheBufferFaults : Prop :=
  ∀ (l : Link) (b : Byte) (s : State),
    s.hresetDone = true → (s.link l).st = .checksum → (s.link l).rem = 1#8 →
    s.params.bufCapacity < (s.link l).idx →
    exec (.rxbyteCks l b) s = .fault .bufferReadOutOfRange

/-! ### The step -/

/-- A step runs the decoded operation: when the environment presents one operation, the step is the execution of the row
it decodes to, in the state with that instant taken. -/
def Obligations.StepRunsTheDecodedOperation : Prop :=
  ∀ (s : State) (r : Request) (rest : List (List Request)), s.inbox = [r] :: rest →
    step s = exec (decode s.params s.view r) { s with inbox := rest }

/-- When the poll finds nothing, nothing happens (60_exceptions.md R144). -/
def Obligations.NothingPresentedChangesNothing : Prop :=
  (∀ (s : State), s.inbox = [] → step s = .next s) ∧
  ∀ (s : State) (rest : List (List Request)), s.inbox = [] :: rest → step s = .next { s with inbox := rest }

/-- `RXBYTE` is total (R70): in every state with `idx` in its range, after an `HRESET`, it takes a next state with one
event of its own link, and touches nothing but that link. -/
def Obligations.RxbyteIsTotal : Prop :=
  ∀ (l : Link) (b : Byte) (s : State),
    s.hresetDone = true → (s.link l).idx ≤ s.params.bufCapacity →
    ∃ (f : Framer) (e : Event), perform s (.rxbyte l b) = .next ((s.setLink l f).withOut (.event (some l) e)) ∧
      e ≠ .txRefused

/-- From a state of the invariant, after an `HRESET`, no step stops, whatever one operation an instant the environment
presents. -/
def Obligations.InvariantStatesNeverStop : Prop :=
  ∀ (s : State), s.Inv → s.hresetDone = true → (∀ q ∈ s.inbox, q.length ≤ 1) → ∃ t, step s = .next t

/-- R78: these are all the edges of the transition graph, with their events. The last clause says that there is no other:
a step that performs none of `RXBYTE`, `SRESET` and `HRESET` (an empty instant, the encoder, the codec) moves no link's
`st`, so no edge is taken on a timeout. -/
def Obligations.TransitionGraphIsExact : Prop :=
  (∀ (s t : State) (l : Link) (b : Byte), perform s (.rxbyte l b) = .next t →
    ∃ e, t.out = .event (some l) e ∧ (t.link l.other).st = (s.link l.other).st ∧
      ( ((s.link l).st = .reset ∧ (3 ≤ b.toNat ∧ b.toNat < s.params.maxPacketSize) ∧ (t.link l).st = .data ∧
          e = .none)
      ∨ ((s.link l).st = .reset ∧ ¬ (3 ≤ b.toNat ∧ b.toNat < s.params.maxPacketSize) ∧ (t.link l).st = .reset ∧
          e = .lenReject)
      ∨ ((s.link l).st = .data ∧ (s.link l).idx < s.params.bufCapacity ∧ (t.link l).rem ≠ 2#8 ∧
          (t.link l).st = .data ∧ e = .none)
      ∨ ((s.link l).st = .data ∧ (s.link l).idx < s.params.bufCapacity ∧ (t.link l).rem = 2#8 ∧
          (t.link l).st = .checksum ∧ e = .none)
      ∨ ((s.link l).st = .data ∧ s.params.bufCapacity ≤ (s.link l).idx ∧ (t.link l).st = .reset ∧ e = .overflow)
      ∨ ((s.link l).st = .checksum ∧ (t.link l).rem ≠ 0#8 ∧ (t.link l).st = .checksum ∧ e = .none)
      ∨ ((s.link l).st = .checksum ∧ (t.link l).rem = 0#8 ∧ (t.link l).st = .reset ∧
          ∃ p, t.bufSlice l (t.link l).idx = some p ∧
            ((crc16Of s.params.crc p = (t.link l).acc ∧ e = .frameOk p) ∨
             (crc16Of s.params.crc p ≠ (t.link l).acc ∧ e = .frameBad))) )) ∧
  (∀ (s t : State) (l : Link), perform s (.sreset l) = .next t →
    (t.link l).st = .reset ∧ (t.link l.other).st = (s.link l.other).st ∧ t.out = .event (some l) .none) ∧
  (∀ (s t : State), perform s .hreset = .next t →
    (∀ l, (t.link l).st = .reset) ∧ t.out = .event none .none) ∧
  ∀ (s t : State), step s = .next t →
    (∀ l b rest, s.inbox ≠ [.rxbyte l b] :: rest) → (∀ l rest, s.inbox ≠ [.sreset l] :: rest) →
    (∀ rest, s.inbox ≠ [.hreset] :: rest) → ∀ l, (t.link l).st = (s.link l).st

/-- What each operation can yield (60_exceptions.md section 1). In particular only `TXENC` yields bytes to transmit, so no
receive error makes the block send anything. That a successful `TXENC` yields its bytes and no event besides is the
model's reading of 42_tx_encoder.md (log 12, DEDUCED: R131 says that every operation yields exactly one event, and lists
none for it); that what is yielded is recorded with its link is the model's field `out` (log 9). -/
def Obligations.EachOperationYieldsItsOwnResults : Prop :=
  ∀ (s t : State) (r : Request), perform s r = .next t →
    match r with
    | .rxbyte l _ => ∃ e, t.out = .event (some l) e ∧ e ≠ .txRefused
    | .sreset l => t.out = .event (some l) .none
    | .hreset => t.out = .event none .none
    | .txenc p => (∃ bytes, t.out = .frame bytes ∧ bytes.length = p.length + 3) ∨ t.out = .event none .txRefused
    | .crc16 _ => ∃ v, t.out = .word v
    | .crcupd _ _ => ∃ v, t.out = .word v
    | .verify _ _ => ∃ v, t.out = .verdict v

/-- The codes and the classes of all six events, and the source's own interface, which maps codes 1, 2, 3 to code 0 and
leaves every other event as it is, the delivered payload included (R131). -/
def Obligations.EventCodesAndClasses : Prop :=
  ∀ p, Event.none.code = 0 ∧ Event.lenReject.code = 1 ∧ Event.overflow.code = 2 ∧ Event.frameBad.code = 3 ∧
    (Event.frameOk p).code = 4 ∧ Event.txRefused.code = 5 ∧
    Event.none.cls = .noError ∧ Event.lenReject.cls = .framingError ∧ Event.overflow.cls = .framingError ∧
    Event.frameBad.cls = .integrityError ∧ (Event.frameOk p).cls = .delivery ∧ Event.txRefused.cls = .refusal ∧
    ∀ e : Event, e.sourceView = if e.code = 1 ∨ e.code = 2 ∨ e.code = 3 then .none else e

/-! ### Decoding and encoding -/

/-- Decode and encode agree: a well-formed row that its state selects is what its own encoding decodes to, with every
operand at every value. -/
def Obligations.DecodeOfEncodeIsTheRow : Prop :=
  ∀ (p : Params) (view : Link → RxView) (i : Instr), i.wf p = true → i.selected p view = true →
    decode p view (encode i) = i

/-- Exactly one row is selected: the decoded row is selected, well formed and encodes back to what was presented, and it
is the only selected row that does (R59, R62). -/
def Obligations.ExactlyOneRowIsSelected : Prop :=
  ∀ (p : Params) (view : Link → RxView) (r : Request),
    (decode p view r).selected p view = true ∧ (decode p view r).wf p = true ∧ encode (decode p view r) = r ∧
    ∀ i : Instr, i.selected p view = true → encode i = r → i = decode p view r

/-- The wire byte of a selected `RXBYTE` row decodes to it, and no other number of bytes is one operation. -/
def Obligations.WireByteOfRowDecodesToRow : Prop :=
  ∀ (p : Params) (view : Link → RxView) (l : Link) (b : Byte),
    (∀ i ∈ [Instr.rxbyteLenAccept l b, .rxbyteLenReject l b, .rxbyteDataStore l b, .rxbyteDataOverflow l b,
        .rxbyteCks l b],
      i.selected p view = true → decodeWire p (view l) l (encodeWire i) = .ok i) ∧
    ∀ (bytes : List Byte) (i : Instr), decodeWire p (view l) l bytes = .ok i → bytes.length = 1 ∧ encodeWire i = bytes

/-- A few wire bytes written out from the table decode to their rows, with `MAX_PACKET_SIZE = 64` and
`BUF_CAPACITY = 4`. -/
def Obligations.SampleWireBytesDecode : Prop :=
  ∀ p, p = { maxPacketSize := 64, bufCapacity := 4, crc := CrcParams.default } →
    decodeWire p { st := .reset, idx := 3 } .hostLink [0b00000101#8] = .ok (.rxbyteLenAccept .hostLink 5) ∧
    decodeWire p { st := .reset, idx := 0 } .boardLink [0b01000000#8] = .ok (.rxbyteLenReject .boardLink 64) ∧
    decodeWire p { st := .data, idx := 3 } .hostLink [0b10100011#8] = .ok (.rxbyteDataStore .hostLink 0xA3) ∧
    decodeWire p { st := .data, idx := 4 } .hostLink [0b10100100#8] = .ok (.rxbyteDataOverflow .hostLink 0xA4) ∧
    decodeWire p { st := .checksum, idx := 3 } .boardLink [0b10101101#8] = .ok (.rxbyteCks .boardLink 0xAD)

/-! ### Invariants -/

/-- The invariant of R17 is kept by every step from every state of it. -/
def Obligations.StepKeepsTheFramerInvariant : Prop :=
  ∀ (s t : State), s.Inv → step s = .next t → t.Inv

/-- The invariant holds right after reset, for every device. -/
def Obligations.ResetSatisfiesTheInvariant : Prop := ∀ (p : Params), (State.resetWith p).Inv

/-- Right after reset, for every device: `st = Reset`, `rem = 0`, `idx = 0`, `acc = 0` on both links. -/
def Obligations.ResetValuesOfBothLinks : Prop :=
  ∀ (p : Params) (l : Link), (State.resetWith p).params = p ∧
    ((State.resetWith p).link l).st = .reset ∧ ((State.resetWith p).link l).rem = 0#8 ∧
    ((State.resetWith p).link l).idx = 0 ∧ ((State.resetWith p).link l).acc = 0x0000#16

/-- `HRESET` leads into the invariant from every state, those no run reaches included. -/
def Obligations.HardResetEstablishesTheInvariant : Prop :=
  ∀ (s : State), ∃ t, perform s .hreset = .next t ∧ t.Inv

/-- Every step keeps both buffers in canonical form, whatever the registers hold: no byte is ever stored outside
`0..BUF_CAPACITY-1` (20_memory.md R31). -/
def Obligations.StepKeepsBuffersCanonical : Prop :=
  ∀ (s t : State), s.buffersWf → step s = .next t → t.buffersWf

/-- No step changes the parameters: "None can be changed while the block runs" (00_scope.md section 3). The other two
clauses are about the model's own fields: exactly `HRESET` marks the block as reset, and no step unmarks it (log 7, DESIGN
CHOICE); and exactly `HRESET` starts a new epoch of free bytes, so that a cell unwritten since then is unspecified anew
(log 3, DESIGN CHOICE, for the unspecified buffer of 10_state.md section 4). -/
def Obligations.StepKeepsParametersAndBoot : Prop :=
  ∀ (s t : State), step s = .next t →
    t.params = s.params ∧
    t.hresetDone = (s.hresetDone || decide (s.inbox.head? = some [.hreset])) ∧
    t.epoch = if s.inbox.head? = some [.hreset] then s.epoch + 1 else s.epoch

/-! ### Frames -/

/-- What the operations that store no byte leave unchanged: `RXBYTE.LEN` (both), `RXBYTE.DATA.overflow`, `RXBYTE.CKS`,
`SRESET`. The other link, every byte of both buffers and everything outside the framers stay; and of the own link's
registers those the rule does not name. -/
def Obligations.NonStoringOperationsFrame : Prop :=
  ∀ (l : Link) (b : Byte) (s t : State),
    (∀ i ∈ [Instr.rxbyteLenAccept l b, .rxbyteLenReject l b, .rxbyteDataOverflow l b, .rxbyteCks l b, .sreset l],
      exec i s = .next t →
        t.link l.other = s.link l.other ∧ (∀ l' a, t.bufRead l' a = s.bufRead l' a) ∧
        t.params = s.params ∧ t.hresetDone = s.hresetDone ∧ t.epoch = s.epoch ∧ t.inbox = s.inbox) ∧
    (exec (.rxbyteLenReject l b) s = .next t → t.link l = s.link l) ∧
    (exec (.rxbyteDataOverflow l b) s = .next t →
      (t.link l).rem = (s.link l).rem ∧ (t.link l).idx = (s.link l).idx ∧ (t.link l).acc = (s.link l).acc) ∧
    (exec (.rxbyteCks l b) s = .next t → (t.link l).idx = (s.link l).idx)

/-- What `RXBYTE.DATA.store` leaves unchanged: every byte but the one at the address it stores to, cell `idx` of its own
link, which holds the byte afterwards; the accumulator; the other link; and everything outside the framers. -/
def Obligations.StoreChangesOneCellOnly : Prop :=
  ∀ (l : Link) (b : Byte) (s t : State), exec (.rxbyteDataStore l b) s = .next t →
    t.bufRead l (s.link l).idx = some b ∧
    (∀ l' a, (l' ≠ l ∨ a ≠ (s.link l).idx) → t.bufRead l' a = s.bufRead l' a) ∧
    (t.link l).acc = (s.link l).acc ∧ t.link l.other = s.link l.other ∧
    t.params = s.params ∧ t.hresetDone = s.hresetDone ∧ t.epoch = s.epoch ∧ t.inbox = s.inbox

/-- R113 and R24: the encoder and the codec change nothing but what is yielded; encoding while a frame is being received
does not disturb the reception. -/
def Obligations.StatelessOperationsFrame : Prop :=
  ∀ (p xs : List Byte) (c r : U16) (b : Byte) (s t : State),
    ∀ i ∈ [Instr.txenc p, .crc16 xs, .crcupd c b, .verify xs r], exec i s = .next t →
      (∀ l, t.link l = s.link l) ∧ (∀ l a, t.bufRead l a = s.bufRead l a) ∧ t.params = s.params ∧
      t.hresetDone = s.hresetDone ∧ t.epoch = s.epoch ∧ t.inbox = s.inbox

/-- A link's framer moves only on its own `RXBYTE` and `SRESET` and on `HRESET`: no timeout, no other link's traffic and
no encoding ever moves it (70_reset_and_hazards.md R155, 60_exceptions.md R143). -/
def Obligations.FramerMovesOnlyOnItsOperations : Prop :=
  ∀ (s t : State) (l : Link), step s = .next t → t.link l ≠ s.link l →
    ∃ rest, (∃ b, s.inbox = [.rxbyte l b] :: rest) ∨ s.inbox = [.sreset l] :: rest ∨ s.inbox = [.hreset] :: rest

/-! ### What an event depends on -/

/-- R41: how a byte is interpreted depends only on `(st, rem, idx)` and the byte: two states that agree on these take the
same `st`, `rem`, `idx`, and the same event unless a frame completes, when each delivers or drops. -/
def Obligations.InterpretationIgnoresBufferContents : Prop :=
  ∀ (s u t v : State) (l : Link) (b : Byte),
    s.params = u.params → (s.link l).st = (u.link l).st → (s.link l).rem = (u.link l).rem →
    (s.link l).idx = (u.link l).idx →
    perform s (.rxbyte l b) = .next t → perform u (.rxbyte l b) = .next v →
    (t.link l).st = (v.link l).st ∧ (t.link l).rem = (v.link l).rem ∧ (t.link l).idx = (v.link l).idx ∧
      (t.out = v.out ∨
        ((s.link l).st = .checksum ∧ (t.link l).rem = 0#8 ∧
          (∀ w ∈ [t, v], w.out = .event (some l) .frameBad ∨ ∃ p, w.out = .event (some l) (.frameOk p))))

/-- No run can tell apart two states that agree on `st` and, outside `Reset`, on `rem`, `idx`, `acc` and the bytes below
`idx`: unspecified cells, stale cells and the dead registers of `Reset` never reach an event (R15, R23, U5, U13). -/
def Obligations.UnspecifiedBytesNeverReachAnEvent : Prop :=
  ∀ (rs : List Request) (s u t : State) (xs : List Result), s.Inv → s.Agrees u →
    performs s rs = some (xs, t) → ∃ v, performs u rs = some (xs, v) ∧ t.Agrees v

/-- R39: the links are independent. Whatever interleaving of operations is performed (without `HRESET`), what one link
yields and where its framer ends are those of its own operations performed alone. -/
def Obligations.InterleavingsProjectToEachLink : Prop :=
  ∀ (rs : List Request) (s t : State) (xs : List Result) (l : Link), .hreset ∉ rs →
    performs s rs = some (xs, t) →
    ∃ ys u, performs s (rs.filter (onLink l)) = some (ys, u) ∧ ys = xs.filter (Result.isOfLink l) ∧
      u.link l = t.link l

/-! ### Frames on the wire -/

/-- R112: the bytes `TXENC` returns, fed to a link in `Reset`, yield `EV_NONE` for every byte but the last and deliver
the payload on the last, with the registers and the buffer as the rule says; where the payload does not fit the buffer,
`EV_OVERFLOW` on payload byte `BUF_CAPACITY + 1` instead. -/
def Obligations.EncodedFrameIsDelivered : Prop :=
  ∀ (p : List Byte) (l : Link) (s : State),
    s.params.wf = true → s.hresetDone = true → (s.link l).st = .reset →
    1 ≤ p.length → p.length ≤ s.params.maxPacketSize - 3 →
    ∃ frame, perform s (.txenc p) = .next (s.withOut (.frame frame)) ∧
      (p.length ≤ s.params.bufCapacity →
        ∃ t, performs s (rxBytes l frame) =
            some (List.replicate (p.length + 2) (Result.ofLink l .none) ++ [Result.ofLink l (.frameOk p)], t) ∧
          (t.link l).st = .reset ∧ (t.link l).idx = p.length ∧ (t.link l).acc = crc16Of s.params.crc p ∧
          (t.link l).rem = 0#8 ∧ t.bufSlice l p.length = some p) ∧
      (s.params.bufCapacity < p.length →
        ∃ t, performs s (rxBytes l (frame.take (s.params.bufCapacity + 2))) =
            some (List.replicate (s.params.bufCapacity + 1) (Result.ofLink l .none) ++
              [Result.ofLink l .overflow], t) ∧
          (t.link l).st = .reset)

/-- R79, the frame-emission property: from a link in `Reset`, a delivery at position `k` of any byte sequence comes from
a length byte accepted in `Reset` at an earlier position `j` with `k = j + n`; the payload is exactly the bytes between,
and the last two bytes are its checksum, high then low. -/
def Obligations.DeliveryMatchesTheBytesConsumed : Prop :=
  ∀ (s t : State) (l : Link) (bs : List Byte) (xs : List Result) (k : Nat) (p : List Byte),
    (s.link l).st = .reset → performs s (rxBytes l bs) = some (xs, t) →
    xs[k]? = some (Result.ofLink l (.frameOk p)) →
    ∃ (j : Nat) (n : Byte) (ys : List Result) (u : State),
      bs[j]? = some n ∧ performs s (rxBytes l (bs.take j)) = some (ys, u) ∧ (u.link l).st = .reset ∧
      3 ≤ n.toNat ∧ n.toNat < s.params.maxPacketSize ∧ k = j + n.toNat ∧
      p.length = n.toNat - 2 ∧ (bs.drop (j + 1)).take (n.toNat - 2) = p ∧
      bs[k - 1]? = some ((crc16Of s.params.crc p).extractLsb' 8 8) ∧
      bs[k]? = some ((crc16Of s.params.crc p).extractLsb' 0 8)

/-- The machine refines the framer over lists: with the abstraction that forgets the registers, every `RXBYTE` is one
step of it, with the same event, and leaves the other link's abstraction alone. -/
def Obligations.ReceiverRefinesTheListFramer : Prop :=
  ∀ (s : State) (l : Link) (b : Byte), s.Inv → s.hresetDone = true →
    ∃ t, perform s (.rxbyte l b) = .next t ∧
      t.abstractLink l = ((s.abstractLink l).step s.params (crc16Of s.params.crc) b).1 ∧
      t.out = .event (some l) ((s.abstractLink l).step s.params (crc16Of s.params.crc) b).2 ∧
      t.abstractLink l.other = s.abstractLink l.other

/-- R90's contract is enough for the round trip: for EVERY checksum function, the framer over lists delivers an encoded
payload that fits. -/
def Obligations.RoundTripForEveryChecksum : Prop :=
  ∀ (p : Params) (ck : List Byte → U16) (q : List Byte), p.wf = true →
    1 ≤ q.length → q.length ≤ p.maxPacketSize - 3 → q.length ≤ p.bufCapacity →
    AFramer.feed p ck .idle (wireFrame q (ck q)) =
      (List.replicate (q.length + 2) .none ++ [.frameOk q], .idle)

/-- A delivery finds the framer idle, carries exactly the bytes below the index, verified, and from a state of the
invariant has a length a frame can have (R60, R138). -/
def Obligations.DeliveryCarriesTheVerifiedPayload : Prop :=
  ∀ (s t : State) (l l' : Link) (b : Byte) (p : List Byte), s.Inv → perform s (.rxbyte l b) = .next t →
    t.out = .event (some l') (.frameOk p) →
    l' = l ∧ (t.link l).st = .reset ∧ (t.link l).rem = 0#8 ∧ t.bufSlice l (t.link l).idx = some p ∧
      p.length = (t.link l).idx ∧ crc16Of s.params.crc p = (t.link l).acc ∧
      1 ≤ p.length ∧ p.length ≤ s.params.maxPacketSize - 3

/-- The overflow reject can never fire where `BUF_CAPACITY >= MAX_PACKET_SIZE - 3` (00_scope.md R6, R133). -/
def Obligations.LargeBufferNeverOverflows : Prop :=
  ∀ (s t : State) (l : Link) (b : Byte), s.Inv → s.params.maxPacketSize - 3 ≤ s.params.bufCapacity →
    perform s (.rxbyte l b) = .next t → t.out ≠ .event (some l) .overflow

/-- A started frame ends within its countdown: any `rem` bytes bring the link back to `Reset` at some byte of them. -/
def Obligations.FrameEndsWithinItsCountdown : Prop :=
  ∀ (s : State) (l : Link) (bs : List Byte), s.Inv → s.hresetDone = true → (s.link l).st ≠ .reset →
    bs.length = (s.link l).rem.toNat →
    ∃ (k : Nat) (xs : List Result) (t : State), 1 ≤ k ∧ k ≤ bs.length ∧
      performs s (rxBytes l (bs.take k)) = some (xs, t) ∧ (t.link l).st = .reset

/-- R151: after `HRESET`, from any state, the first byte on a link is a length byte, whatever it is. -/
def Obligations.FirstByteAfterHresetIsALength : Prop :=
  ∀ (s : State) (l : Link) (b : Byte), ∃ t,
    performs s [.hreset, .rxbyte l b] =
      some ([.event none .none,
        Result.ofLink l (if 3 ≤ b.toNat ∧ b.toNat < s.params.maxPacketSize then .none else .lenReject)], t) ∧
    (t.link l).st = if 3 ≤ b.toNat ∧ b.toNat < s.params.maxPacketSize then .data else .reset

/-! ### Two devices on a link -/

/-- What becomes of a frame that another device sent (70_reset_and_hazards.md R160, 41_integrity_codec.md R98). A device
in state `u` encodes a payload; its bytes are fed to a link in `Reset` of a device in state `s`, built with any parameters.
The receiver takes the bytes before the one that decides with `EV_NONE`, yields the event of `frameFate` for that one, and
is in `Reset`; and the byte that comes next, one of the same frame after a framing error, it reads as a length byte, for
which it loses step (R154). That a frame whose checksum comes out the same under both devices' differing parameters is
delivered is the model's reading (log 15, DEDUCED): it follows 41_integrity_codec.md R94 and R95, while R160 (a) and R98 by
the letter make every frame between such devices an integrity error. -/
def Obligations.FrameOfAnotherDeviceMeetsItsFate : Prop :=
  ∀ (u s : State) (l : Link) (q : List Byte),
    u.params.wf = true → 1 ≤ q.length → q.length ≤ u.params.maxPacketSize - 3 →
    s.hresetDone = true → (s.link l).st = .reset →
    ∃ frame t, perform u (.txenc q) = .next (u.withOut (.frame frame)) ∧
      performs s (rxBytes l (frame.take ((frameFate u.params s.params q).before + 1))) =
        some (List.replicate (frameFate u.params s.params q).before (Result.ofLink l .none) ++
          [Result.ofLink l (frameFate u.params s.params q).event], t) ∧
      (t.link l).st = .reset ∧ t.link l.other = s.link l.other ∧ t.params = s.params ∧
      ∀ b, ∃ v, perform t (.rxbyte l b) = .next v ∧
        v.out = Result.ofLink l (if 3 ≤ b.toNat ∧ b.toNat < s.params.maxPacketSize then .none else .lenReject)

/-- What the duty of R160 buys: a receiver built alike delivers every payload the sender can frame; a receiver that does
deliver every one has a length bound and a buffer that fit; and a frame from a sender with the same checksum parameters
never ends in an integrity error. Equal parameters are built alike where the buffer holds every payload, as it
does by default; with a smaller buffer they are not enough (the model's reading of R160's last sentence, log 15). -/
def Obligations.BuiltAlikeDevicesDeliverEveryFrame : Prop :=
  (∀ (sender receiver : Params) (q : List Byte), sender.builtAlike receiver = true →
    1 ≤ q.length → q.length ≤ sender.maxPacketSize - 3 →
    frameFate sender receiver q = ⟨q.length + 2, .frameOk q⟩) ∧
  (∀ (sender receiver : Params), sender.wf = true →
    (∀ q : List Byte, 1 ≤ q.length → q.length ≤ sender.maxPacketSize - 3 →
      (frameFate sender receiver q).event = .frameOk q) →
    sender.maxPacketSize ≤ receiver.maxPacketSize ∧ sender.maxPacketSize - 3 ≤ receiver.bufCapacity) ∧
  (∀ (sender receiver : Params) (q : List Byte), sender.crc = receiver.crc →
    (frameFate sender receiver q).event ≠ .frameBad) ∧
  ∀ p : Params, p.builtAlike p = true ↔ p.maxPacketSize ≤ p.bufCapacity + 3

/-- R160 (a) where it holds of every frame: two devices whose checksums differ in `CRC_XOROUT` alone, or in `CRC_INIT`
alone with bit 0 of `CRC_POLY` set, drop every frame of each other that the receiver's length bound and buffer admit, as
integrity errors. For other differences `frameFate` decides payload by payload (log 15). -/
def Obligations.DifferingChecksumParametersDropEveryFrame : Prop :=
  ∀ (sender receiver : Params) (q : List Byte), 1 ≤ q.length → q.length + 2 < receiver.maxPacketSize →
    q.length ≤ receiver.bufCapacity →
    ((∃ x, x ≠ receiver.crc.xorout ∧ sender.crc = { receiver.crc with xorout := x }) ∨
      (receiver.crc.poly.getLsbD 0 = true ∧ ∃ x, x ≠ receiver.crc.init ∧ sender.crc = { receiver.crc with init := x })) →
    frameFate sender receiver q = ⟨q.length + 2, .frameBad⟩

/-! ### What the checksum detects -/

/-- R97 (b), first part: the checksums of two lists of equal length differ by the register run from 0 over their bytewise
exclusive or, reflected if `CRC_REFOUT`. -/
def Obligations.ChecksumDifferenceIsTheRegisterFromZero : Prop :=
  ∀ (k : CrcParams) (xs ys : List Byte), xs.length = ys.length →
    crc16Of k xs ^^^ crc16Of k ys =
      if k.refout then reflect16 (crcFold k 0 (List.zipWith (· ^^^ ·) xs ys))
      else crcFold k 0 (List.zipWith (· ^^^ ·) xs ys)

/-- From R97 (b), second part: when bit 0 of the polynomial is 1, every change confined to one byte position or to two
adjacent byte positions changes the checksum. -/
def Obligations.ChecksumDetectsAdjacentByteChanges : Prop :=
  ∀ (k : CrcParams) (before after : List Byte) (a b a' b' : Byte), k.poly.getLsbD 0 = true →
    (a ≠ a' → crc16Of k (before ++ [a] ++ after) ≠ crc16Of k (before ++ [a'] ++ after)) ∧
    ((a ≠ a' ∨ b ≠ b') →
      crc16Of k (before ++ [a, b] ++ after) ≠ crc16Of k (before ++ [a', b'] ++ after))
end

