-- ==== Sys2Proof/Tests/Slice0.lean ====
section
/-!
SUPPORT. The model's own tests. Expected values are those of 95_test_vectors.md (the section is named beside each) or
hand calculation from the rules; the witnesses show that the hypotheses of each statement can be met together.
-/

namespace Sys2Proof.Tests

open Sys2Proof.Machine

/- `decide` evaluates checksums of up to nine bytes here, deeper than the usual limit of recursion. -/
set_option maxRecDepth 20000

/-! ### Helpers -/

/-- `MAX_PACKET_SIZE = 16`, `BUF_CAPACITY = 4`: the configuration of 95_test_vectors.md section 4. -/
def small : Params := { maxPacketSize := 16, bufCapacity := 4, crc := CrcParams.default }

/-- A framer with these registers and the bytes `bytes` in its first cells. -/
def framer (st : FramerSt) (rem : Byte) (idx : Nat) (acc : U16) (bytes : List Byte) : Framer :=
  { st := st, rem := rem, idx := idx, acc := acc, buf := (List.range bytes.length).zip bytes }

/-- The state after reset with `p`, with `HostLink`'s framer put in place. -/
def host (p : Params) (f : Framer) : State := { State.resetWith p with hostLink := f }

/-- One reading of the next state of an outcome: none where it stops. -/
def after {α : Type} (o : Outcome) (read : State → α) : Option α :=
  match o with
  | .next t => some (read t)
  | .fault _ => none
  | .refused _ => none

/-- The registers of `HostLink`, as 95_test_vectors.md writes them, and what was yielded. -/
def regs (t : State) : FramerSt × Byte × Nat × U16 × Result :=
  (t.hostLink.st, t.hostLink.rem, t.hostLink.idx, t.hostLink.acc, t.out)

/-- The event of `HostLink`. -/
def ev (e : Event) : Result := .event (some .hostLink) e

def inReset : Framer := framer .reset 0 3 0xADAD [1, 2, 3]
def inData : Framer := framer .data 3 2 0 [1, 2]
def inChecksum : Framer := framer .checksum 1 3 0x00AD [1, 2, 3]
def full : Framer := framer .data 4 4 0 [0xA0, 0xA1, 0xA2, 0xA3]

/-! ### WellFormed refuses ill-formed terms -/

theorem wf_params_default : Params.default.wf = true := by decide
theorem wf_refuses_max_packet_size_3 : ({ small with maxPacketSize := 3 } : Params).wf = false := by decide
theorem wf_refuses_max_packet_size_257 : ({ small with maxPacketSize := 257 } : Params).wf = false := by decide
theorem wf_refuses_no_buffer : ({ small with bufCapacity := 0 } : Params).wf = false := by decide
theorem wf_refuses_accept_of_2 : (Instr.rxbyteLenAccept .hostLink 2).wf small = false := by decide
theorem wf_refuses_accept_of_max : (Instr.rxbyteLenAccept .hostLink 16).wf small = false := by decide
theorem wf_refuses_reject_of_legal : (Instr.rxbyteLenReject .hostLink 15).wf small = false := by decide
theorem memory_wf_refuses_unsorted : Memory.wf 4 [(1, 0), (0, 0)] = false := by decide
theorem memory_wf_refuses_duplicate : Memory.wf 4 [(1, 0), (1, 0)] = false := by decide
theorem memory_wf_refuses_past_the_end : Memory.wf 4 [(4, 0)] = false := by decide

/-! ### Decoding: every row's encoding written out (spec/opcode_table.json) -/

/-- "nnnnnnnn" in `Reset`, 3 = MIN, 95_test_vectors.md section 3.1. -/
theorem decode_accept : decodeWire small { st := .reset, idx := 3 } .hostLink [0b00000011#8]
    = .ok (.rxbyteLenAccept .hostLink 3) := by decide
/-- "nnnnnnnn" in `Reset`, `0x10 = MAX_PACKET_SIZE`, section 3.1. -/
theorem decode_reject : decodeWire small { st := .reset, idx := 3 } .boardLink [0b00010000#8]
    = .ok (.rxbyteLenReject .boardLink 16) := by decide
/-- "bbbbbbbb" in `Data` with room, section 4.1 row 1. -/
theorem decode_store : decodeWire small { st := .data, idx := 3 } .hostLink [0b10100011#8]
    = .ok (.rxbyteDataStore .hostLink 0xA3) := by decide
/-- "bbbbbbbb" in `Data` with a full buffer, section 4.1 row 2. -/
theorem decode_overflow : decodeWire small { st := .data, idx := 4 } .hostLink [0b10100100#8]
    = .ok (.rxbyteDataOverflow .hostLink 0xA4) := by decide
/-- "bbbbbbbb" in `Checksum`, section 3.3. -/
theorem decode_cks : decodeWire small { st := .checksum, idx := 3 } .hostLink [0b10101101#8]
    = .ok (.rxbyteCks .hostLink 0xAD) := by decide
/-- The rows whose encoding is "-" are presented as operations. -/
theorem decode_sreset (v) : decode small v (.sreset .boardLink) = .sreset .boardLink := rfl
theorem decode_hreset (v) : decode small v .hreset = .hreset := rfl
theorem decode_txenc (v) : decode small v (.txenc [0x41]) = .txenc [0x41] := rfl
theorem decode_crc16 (v) : decode small v (.crc16 [0x41]) = .crc16 [0x41] := rfl
theorem decode_crcupd (v) : decode small v (.crcupd 0xFFFF 1) = .crcupd 0xFFFF 1 := rfl
theorem decode_verify (v) : decode small v (.verify [0x41] 0xB915) = .verify [0x41] 0xB915 := rfl
theorem decode_no_byte : decodeWire small RxView.afterReset .hostLink [] = .error .noByte := by rfl
theorem decode_two_bytes : decodeWire small RxView.afterReset .hostLink [3, 4] = .error .moreThanOneByte := by rfl
theorem table_word_accept : decodeTableWord 8 0x05 = some (.rxbyteLenAccept .hostLink 5) := by decide
theorem table_word_reject : decodeTableWord 8 0x40 = some (.rxbyteLenReject .hostLink 0x40) := by decide
theorem table_word_no_width : decodeTableWord 0 0 = none := by decide

/-! ### The checksum (sections 2.1, 2.2, 2.3, 2.6) -/

/-- ARC: both reflections; X-25: reflections, initial value and final exclusive or. -/
theorem crc16_other_parameter_sets :
    crc16Of { poly := 0x8005, init := 0, refin := true, refout := true, xorout := 0 }
      [0x31, 0x32, 0x33, 0x34, 0x35, 0x36, 0x37, 0x38, 0x39] = 0xBB3D ∧
    crc16Of { poly := 0x1021, init := 0xFFFF, refin := true, refout := true, xorout := 0xFFFF }
      [0x31, 0x32, 0x33, 0x34, 0x35, 0x36, 0x37, 0x38, 0x39] = 0x906E := by decide
theorem crc_table_entries : crcTable 0x1021 0xFE = 0x0ED1 ∧ crcTable 0x1021 0x80 = 0x9188 := by decide

/-! ### Each operation, one step (sections 3.1 to 3.5, 4.1, 6) -/

theorem test_accept_05 : after (exec (.rxbyteLenAccept .hostLink 5) (host small inReset)) regs
    = some (.data, 5, 0, 0, ev .none) := by decide
theorem test_accept_ff_at_256 :
    after (exec (.rxbyteLenAccept .hostLink 255) (host { small with maxPacketSize := 256 } inReset)) regs
    = some (.data, 255, 0, 0, ev .none) := by decide
theorem test_reject_02 : after (exec (.rxbyteLenReject .hostLink 2) (host small inReset)) regs
    = some (.reset, 0, 3, 0xADAD, ev .lenReject) := by decide
theorem test_store_to_checksum :
    after (exec (.rxbyteDataStore .hostLink 3) (host small inData)) (fun t => (t.hostLink, t.out))
    = some (framer .checksum 2 3 0 [1, 2, 3], ev .none) := by decide
/-- Section 6: `rem` wraps modulo 256. -/
theorem test_store_wraps : after (exec (.rxbyteDataStore .hostLink 0x55) (host small (framer .data 0 2 0 []))) regs
    = some (.data, 255, 3, 0, ev .none) := by decide
theorem test_overflow : after (exec (.rxbyteDataOverflow .hostLink 0xA4) (host small full)) regs
    = some (.reset, 4, 4, 0, ev .overflow) := by decide
theorem test_cks_completes :
    after (exec (.rxbyteCks .hostLink 0xAD) (host small inChecksum)) regs
      = some (.reset, 0, 3, 0xADAD, ev (.frameOk [1, 2, 3])) ∧
    after (exec (.rxbyteCks .hostLink 0xAC) (host small inChecksum)) regs
      = some (.reset, 0, 3, 0xADAC, ev .frameBad) := by decide
/-- The first checksum byte; and, section 6, `rem` wraps and the shift drops the old high byte. -/
theorem test_cks_accumulates :
    after (exec (.rxbyteCks .hostLink 0xAD) (host small (framer .checksum 2 3 0 [1, 2, 3]))) regs
      = some (.checksum, 1, 3, 0x00AD, ev .none) ∧
    after (exec (.rxbyteCks .hostLink 0x55) (host small (framer .checksum 0 1 0x1234 [0x41]))) regs
      = some (.checksum, 255, 1, 0x3455, ev .none) := by decide
theorem test_sreset : after (exec (.sreset .hostLink) (host small inData)) (fun t => (t.hostLink, t.out))
    = some (framer .reset 0 0 0 [1, 2], ev .none) := by decide
theorem test_sreset_other_link : after (exec (.sreset .boardLink) (host small inData)) (fun t => t.hostLink)
    = some inData := by decide
theorem test_hreset : after (exec .hreset (host small inData)) regs
    = some (.reset, 0, 0, 0, .event none .none) := by decide
theorem test_txenc :
    after (exec (.txenc [1, 2, 3]) (host small inData)) (·.out)
      = some (.frame [0x05, 0x01, 0x02, 0x03, 0xAD, 0xAD]) ∧
    after (exec (.txenc [0x41]) (host small inData)) (·.out) = some (.frame [0x03, 0x41, 0xB9, 0x15]) := by decide
theorem test_txenc_refuses :
    after (exec (.txenc []) (host small inData)) (·.out) = some (.event none .txRefused) ∧
    after (exec (.txenc [0x10, 0xAA]) (host { small with maxPacketSize := 4 } inData)) (·.out)
      = some (.event none .txRefused) := by decide
theorem test_crc16 :
    after (exec (.crc16 [0x31, 0x32, 0x33, 0x34, 0x35, 0x36, 0x37, 0x38, 0x39]) (host small inData)) (·.out)
      = some (.word 0x29B1) ∧
    after (exec (.crc16 []) (host small inData)) (·.out) = some (.word 0xFFFF) := by decide
theorem test_crcupd : after (exec (.crcupd 0x0E7C 0x03) (host small inData)) (·.out) = some (.word 0xADAD) := by
  decide
theorem test_verify : after (exec (.verify [0x41] 0xB915) (host small inData)) (·.out) = some (.verdict true) := by
  decide
theorem test_verify_swapped : after (exec (.verify [0x41] 0x15B9) (host small inData)) (·.out)
    = some (.verdict false) := by decide

/-! ### The step -/

theorem test_step_runs_fetched_byte : after (step (State.reset.withFetchWord 8 0x05)) regs
    = some (.data, 5, 0, 0, ev .none) := by decide
theorem test_step_idle : after (step State.reset) (fun t => t) = some State.reset := by decide

/-! ### The statements' hypotheses can be met -/

theorem inv_inReset : (host small inReset).Inv := by
  intro l; cases l <;> constructor <;> decide
theorem inv_inData : (host small inData).Inv := by
  intro l; cases l <;> constructor <;> decide
theorem inv_inChecksum : (host small inChecksum).Inv := by
  intro l; cases l <;> constructor <;> decide
/-- `Data` with `idx = BUF_CAPACITY`, the largest the invariant admits. -/
theorem inv_full : (host small full).Inv := by
  intro l; cases l <;> constructor <;> decide

theorem witness_LegalLengthStartsFrame : (host small inReset).hresetDone = true ∧
    ((host small inReset).link .hostLink).st = .reset ∧
    ∀ n ∈ [3#8, 15#8], 3 ≤ n.toNat ∧ n.toNat < (host small inReset).params.maxPacketSize := by decide
theorem witness_IllegalLengthChangesNothing : (host small inReset).hresetDone = true ∧
    ((host small inReset).link .hostLink).st = .reset ∧
    ∀ n ∈ [2#8, 16#8], n.toNat < 3 ∨ (host small inReset).params.maxPacketSize ≤ n.toNat := by decide
theorem witness_PayloadByteIsStored : (host small inData).hresetDone = true ∧
    ((host small inData).link .hostLink).st = .data ∧
    ((host small inData).link .hostLink).idx < (host small inData).params.bufCapacity := by decide
theorem witness_FullBufferOverflows : (host small full).hresetDone = true ∧
    ((host small full).link .hostLink).st = .data ∧
    (host small full).params.bufCapacity ≤ ((host small full).link .hostLink).idx := by decide
theorem witness_ChecksumByteAccumulates :
    let s := host small (framer .checksum 2 3 0 [1, 2, 3])
    s.hresetDone = true ∧ (s.link .hostLink).st = .checksum ∧ (s.link .hostLink).rem ≠ 1#8 := by decide
theorem witness_LastChecksumByteCompletes :
    let s := host small inChecksum
    s.hresetDone = true ∧ (s.link .hostLink).st = .checksum ∧ (s.link .hostLink).rem = 1#8 ∧
      (s.link .hostLink).idx ≤ s.params.bufCapacity := by decide
theorem witness_TxencReturnsTheFrame : (host small inData).params.wf = true ∧
    ∀ n ∈ [1, 13], 1 ≤ (List.replicate n 0#8).length ∧
      (List.replicate n 0#8).length ≤ (host small inData).params.maxPacketSize - 3 := by decide
theorem witness_TxencRefusesUnframeablePayload : (host small inData).params.wf = true ∧
    ∀ n ∈ [0, 14], (List.replicate n 0#8).length = 0 ∨
      (host small inData).params.maxPacketSize - 3 < (List.replicate n 0#8).length := by decide
theorem witness_UnselectedCaseIsRefused : (host small inData).hresetDone = true ∧
    (Instr.rxbyteLenAccept .hostLink 5).selected small (host small inData).view = false ∧
    (Instr.rxbyteLenReject .hostLink 5).selected small (host small inReset).view = false ∧
    (Instr.rxbyteDataStore .hostLink 5).selected small (host small full).view = false ∧
    (Instr.rxbyteDataOverflow .hostLink 5).selected small (host small inData).view = false ∧
    (Instr.rxbyteCks .hostLink 5).selected small (host small inData).view = false := by decide
theorem witness_ReceiveBeforeHresetIsRefused :
    ({ host small inReset with hresetDone := false } : State).hresetDone = false := by decide
theorem witness_SimultaneousOperationsAreRefused :
    ({ host small inReset with inbox := [[.hreset, .sreset .hostLink]] } : State).inbox
      = (.hreset :: .sreset .hostLink :: []) :: [] := by decide
theorem witness_CompletionPastTheBufferFaults :
    let s := host small (framer .checksum 1 5 0 [])
    s.hresetDone = true ∧ (s.link .hostLink).st = .checksum ∧ (s.link .hostLink).rem = 1#8 ∧
      s.params.bufCapacity < (s.link .hostLink).idx := by decide
theorem witness_StepRunsTheDecodedOperation :
    ({ host small inReset with inbox := [[.rxbyte .hostLink 5]] } : State).inbox = [.rxbyte .hostLink 5] :: [] := by
  decide
theorem witness_NothingPresentedChangesNothing : (host small inData).inbox = [] ∧
    ({ host small inData with inbox := [[]] } : State).inbox = [] :: [] := by decide
theorem witness_RxbyteIsTotal :
    ∀ f ∈ [inReset, inData, inChecksum, full], (host small f).hresetDone = true ∧
      ((host small f).link .hostLink).idx ≤ (host small f).params.bufCapacity := by decide
theorem witness_InvariantStatesNeverStop : (host small inData).Inv ∧ (host small inData).hresetDone = true ∧
    ∀ q ∈ (host small inData).inbox, q.length ≤ 1 := ⟨inv_inData, by decide, by decide⟩
/-- Each of the eight `RXBYTE` edges of R78, in the table's order, the two resets, and the steps that perform none of
these: nothing presented, an empty instant, an encoding. -/
theorem witness_TransitionGraphIsExact :
    ([(inReset, 3#8), (inReset, 2#8), (framer .data 4 1 0 [1], 5#8), (inData, 3#8), (full, 0xA4#8),
        (framer .checksum 2 3 0 [1, 2, 3], 0xAD#8), (inChecksum, 0xAD#8), (inChecksum, 0xAC#8)].map fun c =>
      after (perform (host small c.1) (.rxbyte .hostLink c.2)) fun t => (c.1.st, t.hostLink.st, t.out)) =
      [some (.reset, .data, ev .none), some (.reset, .reset, ev .lenReject), some (.data, .data, ev .none),
        some (.data, .checksum, ev .none), some (.data, .reset, ev .overflow), some (.checksum, .checksum, ev .none),
        some (.checksum, .reset, ev (.frameOk [1, 2, 3])), some (.checksum, .reset, ev .frameBad)] ∧
    (∃ t, perform (host small inData) (.sreset .hostLink) = .next t) ∧
    (∃ t, perform (host small inData) .hreset = .next t) ∧
    ∀ q ∈ [[], [[]], [[.txenc [0x41]]]], ∃ t, step { host small inData with inbox := q } = .next t ∧
      (∀ l b rest, q ≠ [.rxbyte l b] :: rest) ∧ (∀ l rest, q ≠ [.sreset l] :: rest) ∧ ∀ rest, q ≠ [.hreset] :: rest := by
  refine ⟨by decide, ⟨_, rfl⟩, ⟨_, rfl⟩, fun q hq => ?_⟩
  simp only [List.mem_cons, List.not_mem_nil, or_false] at hq
  rcases hq with rfl | rfl | rfl <;> exact ⟨_, rfl, by simp, by simp, by simp⟩
theorem witness_EachOperationYieldsItsOwnResults :
    ∀ r ∈ [Request.rxbyte .hostLink 3, .sreset .hostLink, .hreset, .txenc [0x41], .txenc [], .crc16 [], .crcupd 0 0,
      .verify [] 0], (after (perform (host small inData) r) (fun _ => ())) = some () := by decide
theorem witness_DecodeOfEncodeIsTheRow : ∀ i ∈ [Instr.rxbyteDataStore .hostLink 7, .sreset .boardLink, .hreset,
      .txenc [], .crc16 [1], .crcupd 0 1, .verify [] 0],
    i.wf small = true ∧ i.selected small (host small inData).view = true := by decide
theorem witness_ExactlyOneRowIsSelected :
    (Instr.rxbyteDataStore .hostLink 7).selected small (host small inData).view = true ∧
    encode (.rxbyteDataStore .hostLink 7) = .rxbyte .hostLink 7 := by decide
theorem witness_WireByteOfRowDecodesToRow :
    (Instr.rxbyteCks .hostLink 0xAD).selected small (host small inChecksum).view = true ∧
    decodeWire small ((host small inChecksum).view .hostLink) .hostLink [0xAD] = .ok (.rxbyteCks .hostLink 0xAD) := by
  decide
theorem witness_SampleWireBytesDecode :
    ∃ p : Params, p = { maxPacketSize := 64, bufCapacity := 4, crc := CrcParams.default } := ⟨_, rfl⟩
theorem witness_StepKeepsTheFramerInvariant :
    ((host small inData).present (.rxbyte .hostLink 3)).Inv ∧
    ∃ t, step ((host small inData).present (.rxbyte .hostLink 3)) = .next t := by
  refine ⟨?_, _, rfl⟩
  intro l; cases l <;> constructor <;> decide
theorem witness_StepKeepsBuffersCanonical : ((host small inData).present (.rxbyte .hostLink 3)).buffersWf ∧
    ∃ t, step ((host small inData).present (.rxbyte .hostLink 3)) = .next t := by
  refine ⟨?_, _, rfl⟩
  intro l; cases l <;> decide
/-- A step with `HRESET`, before any, and a step without. -/
theorem witness_StepKeepsParametersAndBoot :
    (∃ t, step (({ host small inData with hresetDone := false } : State).present .hreset) = .next t) ∧
    ∃ t, step ((host small inData).present (.sreset .hostLink)) = .next t := ⟨⟨_, rfl⟩, ⟨_, rfl⟩⟩
theorem witness_NonStoringOperationsFrame :
    (∃ t, exec (.rxbyteLenAccept .hostLink 5) (host small inReset) = .next t) ∧
    (∃ t, exec (.rxbyteLenReject .hostLink 2) (host small inReset) = .next t) ∧
    (∃ t, exec (.rxbyteDataOverflow .hostLink 5) (host small full) = .next t) ∧
    (∃ t, exec (.rxbyteCks .hostLink 5) (host small (framer .checksum 2 3 0 [1, 2, 3])) = .next t) ∧
    ∃ t, exec (.sreset .hostLink) (host small inData) = .next t :=
  ⟨⟨_, rfl⟩, ⟨_, rfl⟩, ⟨_, rfl⟩, ⟨_, rfl⟩, ⟨_, rfl⟩⟩
theorem witness_StoreChangesOneCellOnly :
    ∃ t, exec (.rxbyteDataStore .hostLink 3) (host small inData) = .next t := ⟨_, rfl⟩
theorem witness_StatelessOperationsFrame :
    (∃ t, exec (.txenc [0x41]) (host small inData) = .next t) ∧ (∃ t, exec (.crc16 []) (host small inData) = .next t) ∧
    (∃ t, exec (.crcupd 0 0) (host small inData) = .next t) ∧ ∃ t, exec (.verify [] 0) (host small inData) = .next t :=
  ⟨⟨_, rfl⟩, ⟨_, rfl⟩, ⟨_, rfl⟩, ⟨_, rfl⟩⟩
theorem witness_FramerMovesOnlyOnItsOperations :
    after (step ((host small inData).present (.rxbyte .hostLink 3))) (fun t => decide (t.link .hostLink ≠ inData))
      = some true := by decide
theorem witness_InterpretationIgnoresBufferContents :
    let s := host small inChecksum
    let u := host small (framer .checksum 1 3 0 [9, 9, 9])
    s.params = u.params ∧ (s.link .hostLink).st = (u.link .hostLink).st ∧
      (s.link .hostLink).rem = (u.link .hostLink).rem ∧ (s.link .hostLink).idx = (u.link .hostLink).idx ∧
      after (perform s (.rxbyte .hostLink 0xAD)) (·.out) = some (ev (.frameOk [1, 2, 3])) ∧
      after (perform u (.rxbyte .hostLink 0xAD)) (·.out) = some (ev .frameBad) := by decide
/-- Two states that differ in the epoch of the free bytes, in a stale cell and in `BoardLink`'s dead registers. -/
theorem witness_UnspecifiedBytesNeverReachAnEvent :
    (host small inData).Inv ∧
    (host small inData).Agrees
      { host small (framer .data 3 2 0 [1, 2, 9]) with epoch := 7, boardLink := framer .reset 5 1 9 [] } ∧
    after (perform (host small inData) (.rxbyte .hostLink 3)) (fun _ => ()) = some () := by
  refine ⟨inv_inData, ⟨rfl, rfl, fun l => ?_⟩, by decide⟩
  cases l <;> constructor <;> decide
theorem witness_InterleavingsProjectToEachLink :
    Request.hreset ∉ [Request.rxbyte .hostLink 3, .rxbyte .boardLink 5, .txenc [], .sreset .hostLink] ∧
    (performs (State.resetWith small) [.rxbyte .hostLink 3, .rxbyte .boardLink 5, .txenc [], .sreset .hostLink]).isSome
      = true := by decide
/-- Both clauses at their boundary: 4 bytes fill the buffer, 5 overflow it. -/
theorem witness_EncodedFrameIsDelivered :
    let s := host small inReset
    s.params.wf = true ∧ s.hresetDone = true ∧ (s.link .hostLink).st = .reset ∧
    ∀ n ∈ [4, 5], 1 ≤ (List.replicate n 0#8).length ∧ (List.replicate n 0#8).length ≤ s.params.maxPacketSize - 3 ∧
      ((List.replicate n 0#8).length ≤ s.params.bufCapacity ∨ s.params.bufCapacity < (List.replicate n 0#8).length) := by
  decide
/-- Program P1 of 95_test_vectors.md, after one rejected byte: the delivery is at position 6, the length at 1. -/
theorem witness_DeliveryMatchesTheBytesConsumed :
    ((State.resetWith small).link .hostLink).st = .reset ∧
    ((performs (State.resetWith small) (rxBytes .hostLink [0, 5, 1, 2, 3, 0xAD, 0xAD])).map fun q => q.1[6]?)
      = some (some (Result.ofLink .hostLink (.frameOk [1, 2, 3]))) := by decide
theorem witness_ReceiverRefinesTheListFramer :
    ∀ f ∈ [inReset, inData, inChecksum, full], (host small f).Inv ∧ (host small f).hresetDone = true := by
  intro f hf
  simp only [List.mem_cons, List.not_mem_nil, or_false] at hf
  rcases hf with rfl | rfl | rfl | rfl
  · exact ⟨inv_inReset, rfl⟩
  · exact ⟨inv_inData, rfl⟩
  · exact ⟨inv_inChecksum, rfl⟩
  · exact ⟨inv_full, rfl⟩
theorem witness_RoundTripForEveryChecksum : small.wf = true ∧ ∀ n ∈ [1, 4],
    1 ≤ (List.replicate n 0#8).length ∧ (List.replicate n 0#8).length ≤ small.maxPacketSize - 3 ∧
      (List.replicate n 0#8).length ≤ small.bufCapacity := by decide
theorem witness_DeliveryCarriesTheVerifiedPayload : (host small inChecksum).Inv ∧
    after (perform (host small inChecksum) (.rxbyte .hostLink 0xAD)) (·.out)
      = some (.event (some .hostLink) (.frameOk [1, 2, 3])) := ⟨inv_inChecksum, by decide⟩
theorem witness_LargeBufferNeverOverflows :
    (host { small with bufCapacity := 13 } inData).Inv ∧
    ({ small with bufCapacity := 13 } : Params).maxPacketSize - 3 ≤ 13 ∧
    ∃ t, perform (host { small with bufCapacity := 13 } inData) (.rxbyte .hostLink 0) = .next t := by
  refine ⟨?_, by decide, _, rfl⟩
  intro l; cases l <;> constructor <;> decide
theorem witness_FrameEndsWithinItsCountdown : (host small inData).Inv ∧ (host small inData).hresetDone = true ∧
    ((host small inData).link .hostLink).st ≠ .reset ∧
    [3#8, 0xAD#8, 0xAD#8].length = ((host small inData).link .hostLink).rem.toNat := ⟨inv_inData, by decide⟩
/-- The receiver `small` at the edges of its length bound and its buffer (70_reset_and_hazards.md R160 (b)): a length byte of
16 is rejected, one of 15 is not, and of its 13 payload bytes the fifth overflows; 4 payload bytes fit. -/
theorem test_fate_at_the_bounds :
    let sender := { small with maxPacketSize := 256 }
    frameFate sender small (List.replicate 14 0) = ⟨0, .lenReject⟩ ∧
    frameFate sender small (List.replicate 13 0) = ⟨5, .overflow⟩ ∧
    frameFate sender small [1, 2, 3, 4] = ⟨6, .frameOk [1, 2, 3, 4]⟩ := by decide
/-- By hand: with `CRC_INIT = 0xFFFF` the bytes FF FF empty the register under every polynomial, so that a receiver with
another polynomial delivers them all the same (41_integrity_codec.md R95; log 15), and drops 41. -/
theorem test_fate_of_other_polynomial :
    let sender := { small with crc := { CrcParams.default with poly := 0x8005 } }
    frameFate sender small [0xFF, 0xFF] = ⟨4, .frameOk [0xFF, 0xFF]⟩ ∧
    frameFate sender small [0x41] = ⟨3, .frameBad⟩ := by decide
/-- Each fate is that of a payload the sender can frame. -/
theorem witness_FrameOfAnotherDeviceMeetsItsFate :
    let u := host { small with maxPacketSize := 256 } inData
    let s := host small inReset
    u.params.wf = true ∧ s.hresetDone = true ∧ (s.link .hostLink).st = .reset ∧
    ∀ n ∈ [4, 5, 13, 14], 1 ≤ (List.replicate n 0#8).length ∧
      (List.replicate n 0#8).length ≤ u.params.maxPacketSize - 3 := by decide
/-- `small` with a buffer of 13 bytes is built like itself; its longest payload has 13 bytes; and a receiver that delivers
every payload exists. -/
theorem witness_BuiltAlikeDevicesDeliverEveryFrame :
    let p := { small with bufCapacity := 13 }
    p.builtAlike p = true ∧ p.wf = true ∧ 1 ≤ (List.replicate 13 0#8).length ∧
      (List.replicate 13 0#8).length ≤ p.maxPacketSize - 3 ∧
      ∀ q : List Byte, 1 ≤ q.length → q.length ≤ p.maxPacketSize - 3 → (frameFate p p q).event = .frameOk q := by
  refine ⟨by decide, by decide, by decide, by decide, fun q h1 h2 => ?_⟩
  have h3 : q.length ≤ 13 := h2
  have hl : ({ small with bufCapacity := 13 } : Params).legalLength (q.length + 2) = true :=
    legalLength_iff.mpr ⟨by omega, show q.length + 2 < 16 by omega⟩
  rcases frameFate_cases { small with bufCapacity := 13 } { small with bufCapacity := 13 } q with
    ⟨hl', -⟩ | ⟨-, hb, -⟩ | ⟨-, -, hf⟩
  · rw [hl] at hl'; cases hl'
  · exact absurd h3 (Nat.not_le.mpr hb)
  · rw [hf, if_pos rfl]
theorem witness_DifferingChecksumParametersDropEveryFrame :
    1 ≤ [0xFF#8, 0xFF#8].length ∧ [0xFF#8, 0xFF#8].length + 2 < small.maxPacketSize ∧
    [0xFF#8, 0xFF#8].length ≤ small.bufCapacity ∧
    (∃ x, x ≠ small.crc.xorout ∧ ({ CrcParams.default with xorout := 1 } : CrcParams) = { small.crc with xorout := x }) ∧
    small.crc.poly.getLsbD 0 = true ∧
    ∃ x, x ≠ small.crc.init ∧ ({ CrcParams.default with init := 0 } : CrcParams) = { small.crc with init := x } :=
  ⟨by decide, by decide, by decide, ⟨1, by decide, rfl⟩, by decide, 0, by decide, rfl⟩
theorem witness_ChecksumDifferenceIsTheRegisterFromZero : [1#8, 2#8].length = [3#8, 4#8].length := rfl
theorem witness_ChecksumDetectsAdjacentByteChanges :
    CrcParams.default.poly.getLsbD 0 = true ∧ (1#8 ≠ 0x81#8) ∧ (1#8 ≠ 1#8 ∨ 2#8 ≠ 3#8) := by decide

end Sys2Proof.Tests
end

/-!
PROOFS. How a received byte is interpreted (20_memory.md R41): the reaction to a byte as a function of `(st, rem, idx)`
and the byte alone, and that the machine reacts so, except that the buffer decides which event a completion yields.
-/

namespace Sys2Proof.Machine

/-- What the interpretation of a received byte depends on, besides the byte (20_memory.md R41). -/
structure Position where
  st : FramerSt
  rem : Byte
  idx : Nat

/-- The position of a framer: its registers without the accumulator and the buffer. -/
def Framer.position (f : Framer) : Position := ⟨f.st, f.rem, f.idx⟩

/-- The position after a byte, and the event where the position and the byte determine it: at a completion they do
not, and there is none. -/
def Position.react (p : Params) (q : Position) (b : Byte) : Position × Option Event :=
  match q.st with
  | .reset => if p.legalLength b.toNat then (⟨.data, b, 0⟩, some .none) else (q, some .lenReject)
  | .data =>
    if q.idx < p.bufCapacity then (⟨stAfterStore (q.rem - 1#8), q.rem - 1#8, q.idx + 1⟩, some .none)
    else ({ q with st := .reset }, some .overflow)
  | .checksum =>
    if q.rem - 1#8 = 0#8 then (⟨.reset, 0#8, q.idx⟩, none) else ({ q with rem := q.rem - 1#8 }, some .none)

theorem Framer.position_eq_iff {f g : Framer} :
    f.position = g.position ↔ f.st = g.st ∧ f.rem = g.rem ∧ f.idx = g.idx := by simp [Framer.position]

/-- The machine reacts to a byte as `Position.react` says. Where that names no event, the byte completes a frame,
and the event is a delivery or an integrity error (40_rx_framer.md R75, R76). -/
theorem rxbyte_reacts {s t : State} {l : Link} {b : Byte} (h : perform s (.rxbyte l b) = .next t) :
    (t.link l).position = ((s.link l).position.react s.params b).1 ∧
    (((s.link l).position.react s.params b).2.map (Result.ofLink l) = some t.out ∨
      ((s.link l).position.react s.params b).2 = none ∧ (s.link l).st = .checksum ∧ (t.link l).rem = 0#8 ∧
        (t.out = Result.ofLink l .frameBad ∨ ∃ p, t.out = Result.ofLink l (.frameOk p))) := by
  obtain ⟨-, ⟨hst, hl, rfl⟩ | ⟨hst, hl, rfl⟩ | ⟨hst, hi, rfl⟩ | ⟨hst, hi, rfl⟩ | ⟨hst, hr, rfl⟩ | ⟨hst, hr, -, rfl⟩⟩ :=
    rxbyte_cases h
  · simp [Framer.position, Position.react, Result.ofLink, hst, hl]
  · simp [Framer.position, Position.react, Result.ofLink, hst, hl]
  · simp [Framer.position, Position.react, Result.ofLink, hst, hi]
  · simp [Framer.position, Position.react, Result.ofLink, hst, Nat.not_lt.mpr hi]
  · simp [Framer.position, Position.react, Result.ofLink, hst, hr]
  · refine ⟨by simp [Framer.position, Position.react, hst, hr], .inr ⟨?_, hst, by simp [hr], ?_⟩⟩
    · simp [Framer.position, Position.react, hst, hr]
    · rw [withOut_out]
      split
      · exact .inr ⟨_, rfl⟩
      · exact .inl rfl

/-- Settles O39: both states react as the same function of the same position does. -/
theorem interpretationIgnoresBufferContents : Obligations.InterpretationIgnoresBufferContents := by
  intro s u t v l b hp hst hrem hidx ht hv
  obtain ⟨htpos, htout⟩ := rxbyte_reacts ht
  obtain ⟨hvpos, hvout⟩ := rxbyte_reacts hv
  rw [← hp, ← Framer.position_eq_iff.mpr ⟨hst, hrem, hidx⟩] at hvpos hvout
  obtain ⟨hst', hrem', hidx'⟩ := Framer.position_eq_iff.mp (htpos.trans hvpos.symm)
  refine ⟨hst', hrem', hidx', ?_⟩
  rcases htout with hte | ⟨hnone, hck, hzero, htend⟩
  · rcases hvout with hve | ⟨hnone, -⟩
    · exact .inl (Option.some.inj (hte.symm.trans hve))
    · simp [hnone] at hte
  · rcases hvout with hve | ⟨-, -, -, hvend⟩
    · simp [hnone] at hve
    · exact .inr ⟨hck, hzero, by simpa [Result.ofLink] using ⟨htend, hvend⟩⟩

end Sys2Proof.Machine

/-!
PROOFS. The payload bytes a framer has collected, what `RXBYTE` keeps, and runs of operations taken apart.
-/

namespace Sys2Proof.Machine

/-- The payload bytes a link has collected, `buf[0..idx)`: what a completion reads (40_rx_framer.md R76). -/
def State.collected (s : State) (l : Link) : List Byte := (List.range (s.link l).idx).map (s.cell l)

@[simp] theorem collected_length (s : State) (l : Link) : (s.collected l).length = (s.link l).idx := by
  simp [State.collected]

theorem collected_of_idx_zero {s : State} {l : Link} (h : (s.link l).idx = 0) : s.collected l = [] := by
  simp [State.collected, h]

/-- A slice up to the index is what was collected, where the buffer has that many cells. -/
theorem bufSlice_idx {s : State} {l : Link} (h : (s.link l).idx ≤ s.params.bufCapacity) :
    s.bufSlice l (s.link l).idx = some (s.collected l) := bufSlice_eq_some.mpr ⟨h, rfl⟩

@[simp] theorem collected_withOut (s : State) (l : Link) (r : Result) :
    (s.withOut r).collected l = s.collected l := by simp [State.collected]

/-- What was collected depends on the buffer and the index alone. -/
theorem collected_setLink {s : State} {l : Link} {f : Framer} (hbuf : f.buf = (s.link l).buf)
    (hidx : f.idx = (s.link l).idx) : (s.setLink l f).collected l = s.collected l := by
  simp [State.collected, hidx, cell_setLink_of_buf _ _ _ _ _ hbuf]

/-- A stored byte comes after the bytes collected before it (40_rx_framer.md R73). -/
theorem collected_storeByte (s : State) (l : Link) (b : Byte) :
    (s.setLink l ((s.link l).storeByte b)).collected l = s.collected l ++ [b] := by
  have hbelow : ∀ i ∈ List.range (s.link l).idx,
      (s.setLink l ((s.link l).storeByte b)).cell l i = s.cell l i := fun i hi => by
    rw [cell_storeByte, if_neg fun h => (List.mem_range.mp hi).ne h.2]
  have hat : (s.setLink l ((s.link l).storeByte b)).cell l (s.link l).idx = b := by
    rw [cell_storeByte, if_pos ⟨rfl, rfl⟩]
  simp [State.collected, List.range_succ, hat, List.map_congr_left hbelow]

theorem rxbyte_keeps_params {s t : State} {l : Link} {b : Byte} (h : perform s (.rxbyte l b) = .next t) :
    t.params = s.params := by
  obtain ⟨-, ⟨-, -, rfl⟩ | ⟨-, -, rfl⟩ | ⟨-, -, rfl⟩ | ⟨-, -, rfl⟩ | ⟨-, -, rfl⟩ | ⟨-, -, -, rfl⟩⟩ :=
    rxbyte_cases h <;> simp

/-- A run of one list of operations after another is a run of the first and then of the second. -/
theorem performs_append {s u : State} {rs qs : List Request} {zs : List Result} :
    performs s (rs ++ qs) = some (zs, u) ↔
      ∃ t xs ys, performs s rs = some (xs, t) ∧ performs t qs = some (ys, u) ∧ zs = xs ++ ys := by
  induction rs generalizing s zs with
  | nil => simp [performs_nil]
  | cons r rs ih =>
    simp only [List.cons_append, performs_cons, ih]
    constructor
    · rintro ⟨t, ws, hr, ⟨v, xs, ys, hrs, hqs, rfl⟩, rfl⟩
      exact ⟨v, t.out :: xs, ys, ⟨t, xs, hr, hrs, rfl⟩, hqs, rfl⟩
    · rintro ⟨v, zs, ys, ⟨t, xs, hr, hrs, rfl⟩, hqs, rfl⟩
      exact ⟨t, xs ++ ys, hr, ⟨v, xs, ys, hrs, hqs, rfl⟩, rfl⟩

theorem performs_singleton {s u : State} {r : Request} {xs : List Result} :
    performs s [r] = some (xs, u) ↔ perform s r = .next u ∧ xs = [u.out] := by
  simp only [performs_cons, performs_nil, Option.some.injEq, Prod.mk.injEq]
  constructor
  · rintro ⟨t, ys, hr, ⟨rfl, rfl⟩, rfl⟩; exact ⟨hr, rfl⟩
  · rintro ⟨hr, rfl⟩; exact ⟨u, [], hr, ⟨rfl, rfl⟩, rfl⟩

/-- The result at a position of a run is what the operation there yields, in the state that those before it lead to. -/
theorem performs_getElem? {s t : State} {rs : List Request} {xs : List Result} {k : Nat} {x : Result}
    (h : performs s rs = some (xs, t)) (hx : xs[k]? = some x) :
    ∃ r u v ys, rs[k]? = some r ∧ performs s (rs.take k) = some (ys, u) ∧ perform u r = .next v ∧ v.out = x := by
  induction rs generalizing s xs k with
  | nil => cases h; simp at hx
  | cons r rs ih =>
    obtain ⟨u, ys, hr, hrs, rfl⟩ := (performs_cons s r rs).mp h
    cases k with
    | zero => exact ⟨r, s, u, [], rfl, rfl, hr, by simpa using hx⟩
    | succ k =>
      obtain ⟨q, w, v, zs, hq, htake, hperf, hout⟩ := ih hrs (by simpa using hx)
      exact ⟨q, w, v, u.out :: zs, by simpa using hq, (performs_cons s r _).mpr ⟨u, zs, hr, htake, rfl⟩, hperf, hout⟩

/-- The same for bytes that arrive on a link. -/
theorem performs_rxBytes_getElem? {s t : State} {l : Link} {bs : List Byte} {xs : List Result} {k : Nat} {x : Result}
    (h : performs s (rxBytes l bs) = some (xs, t)) (hx : xs[k]? = some x) :
    ∃ b u v ys, bs[k]? = some b ∧ performs s (rxBytes l (bs.take k)) = some (ys, u) ∧
      perform u (.rxbyte l b) = .next v ∧ v.out = x := by
  obtain ⟨r, u, v, ys, hr, htake, hperf, hout⟩ := performs_getElem? h hx
  simp only [rxBytes, List.getElem?_map, Option.map_eq_some_iff] at hr
  obtain ⟨b, hb, rfl⟩ := hr
  exact ⟨b, u, v, ys, hb, by rw [rxBytes, List.map_take]; exact htake, hperf, hout⟩

theorem performs_rxBytes_concat {s u : State} {l : Link} {bs : List Byte} {b : Byte} {zs : List Result} :
    performs s (rxBytes l (bs ++ [b])) = some (zs, u) ↔
      ∃ t xs, performs s (rxBytes l bs) = some (xs, t) ∧ perform t (.rxbyte l b) = .next u ∧ zs = xs ++ [u.out] := by
  simp only [rxBytes, List.map_append, List.map_cons, List.map_nil, performs_append, performs_singleton]
  constructor
  · rintro ⟨t, xs, ys, hbs, ⟨hb, rfl⟩, rfl⟩; exact ⟨t, xs, hbs, hb, rfl⟩
  · rintro ⟨t, xs, hbs, hb, rfl⟩; exact ⟨t, xs, [u.out], hbs, ⟨hb, rfl⟩, rfl⟩

end Sys2Proof.Machine

/-!
PROOFS. The five cases of `RXBYTE` (40_rx_framer.md R71 to R76) and the transition graph they form (R78).
-/

namespace Sys2Proof.Machine

/-- Settles O1. -/
theorem legalLengthStartsFrame : Obligations.LegalLengthStartsFrame := by
  intro l n s hd hst hmin hmax
  have hlegal : s.params.legalLength n.toNat = true := legalLength_iff.mpr ⟨hmin, hmax⟩
  exact guardRx_of_selected hd (by simp [Instr.selected, hst, hlegal])

/-- Settles O2. -/
theorem illegalLengthChangesNothing : Obligations.IllegalLengthChangesNothing := by
  intro l n s hd hst hbad
  have hillegal : s.params.legalLength n.toNat = false := by
    rw [Bool.eq_false_iff, ne_eq, legalLength_iff]; omega
  exact guardRx_of_selected hd (by simp [Instr.selected, hst, hillegal])

/-- The state after a store is decided by the countdown alone (40_rx_framer.md R73). -/
theorem stAfterStore_eq (rem : Byte) : stAfterStore rem = if rem = 2#8 then .checksum else .data := by
  simp [stAfterStore, payloadEnds]

/-- A stored byte, with every field written out (40_rx_framer.md R73). -/
theorem storeByte_eq (f : Framer) (b : Byte) :
    f.storeByte b =
      { f with
        buf := Memory.set f.buf f.idx b
        idx := f.idx + 1
        rem := f.rem - 1#8
        st := if f.rem - 1#8 = 2#8 then .checksum else .data } := by
  rw [← stAfterStore_eq]; rfl

/-- Settles O3. -/
theorem payloadByteIsStored : Obligations.PayloadByteIsStored := by
  intro l b s hd hst hidx
  rw [← storeByte_eq]
  exact guardRx_of_selected hd (by simp [Instr.selected, hst, hidx])

/-- Settles O4. -/
theorem fullBufferOverflows : Obligations.FullBufferOverflows := by
  intro l b s hd hst hidx
  exact guardRx_of_selected hd (by simp [Instr.selected, hst, hidx])

/-- A selected `RXBYTE.CKS` whose countdown ends is the completion of the frame (40_rx_framer.md R75). -/
theorem exec_cks_of_last {s : State} {l : Link} {b : Byte} (hd : s.hresetDone = true)
    (hst : (s.link l).st = .checksum) (hrem : (s.link l).rem = 1#8) :
    exec (.rxbyteCks l b) s = complete (s.setLink l ((s.link l).takeChecksumByte b)) l := by
  have hsel : (Instr.rxbyteCks l b).selected s.params s.view = true := by simp [Instr.selected, hst]
  have hend : frameEnds ((s.link l).takeChecksumByte b).rem = true := by simp [frameEnds, hrem]
  exact (guardRx_of_selected hd hsel).trans (if_pos hend)

/-- Settles O6: the completion reads the registers after the accumulation and the cells before it. -/
theorem lastChecksumByteCompletes : Obligations.LastChecksumByteCompletes := by
  intro l b s hd hst hrem hidx
  have hcells : (s.setLink l ((s.link l).takeChecksumByte b)).cell l = s.cell l :=
    funext fun i => cell_setLink_of_buf _ _ _ _ _ rfl
  have hframer : ((s.link l).takeChecksumByte b).toReset =
      { s.link l with acc := ((s.link l).acc <<< 8) ||| b.setWidth 16, rem := 0#8, st := .reset } := by
    simp [Framer.toReset, Framer.takeChecksumByte, accumulate, hrem]
  rw [exec_cks_of_last hd hst hrem, complete_eq (by simpa using hidx), hcells]
  simp [hframer, accumulate]

/-- A step that performs no operation or only the encoder or the codec leaves both framers: the graph has no edge on a
timeout (40_rx_framer.md R78). -/
theorem step_link_of_not_framer_operation {s t : State} (h : step s = .next t)
    (hrx : ∀ l b rest, s.inbox ≠ [.rxbyte l b] :: rest) (hsreset : ∀ l rest, s.inbox ≠ [.sreset l] :: rest)
    (hhreset : ∀ rest, s.inbox ≠ [.hreset] :: rest) (l : Link) : t.link l = s.link l := by
  obtain ⟨-, rfl⟩ | ⟨rest, -, rfl⟩ | ⟨r, rest, hin, hperf⟩ := step_cases h
  · rfl
  · rw [takeInstant_link]
  · obtain ⟨l', b, rfl⟩ | ⟨l', rfl⟩ | rfl | ⟨-, hout, -⟩ := stateless_next hperf
    · exact absurd hin (hrx l' b rest)
    · exact absurd hin (hsreset l' rest)
    · exact absurd hin (hhreset rest)
    · rw [hout, withOut_link, takeInstant_link]

/-- `HRESET` takes a next state from every state (70_reset_and_hazards.md R150). -/
theorem perform_hreset (s : State) :
    perform s .hreset =
      .next ({ s with
        hostLink := Framer.afterHreset
        boardLink := Framer.afterHreset
        hresetDone := true
        epoch := s.epoch + 1 }.withOut (.event none .none)) := by
  rw [perform_eq]; rfl

/-- Settles O22: the `RXBYTE` edges are its six outcomes, the store and the completion each split by what they test. -/
theorem transitionGraphIsExact : Obligations.TransitionGraphIsExact := by
  refine ⟨fun s t l b h => ?_, fun s t l h => ?_, fun s t h => ?_, fun s t h hrx hsreset hhreset l =>
    congrArg Framer.st (step_link_of_not_framer_operation h hrx hsreset hhreset l)⟩
  · obtain ⟨-, ⟨hst, hl, rfl⟩ | ⟨hst, hl, rfl⟩ | ⟨hst, hi, rfl⟩ | ⟨hst, hi, rfl⟩ | ⟨hst, hr, rfl⟩ |
      ⟨hst, hr, hi, rfl⟩⟩ := rxbyte_cases h
    · exact ⟨_, rfl, by simp, .inl ⟨hst, legalLength_iff.mp hl, by simp, rfl⟩⟩
    · have hillegal := mt legalLength_iff.mpr (Bool.eq_false_iff.mp hl)
      exact ⟨_, rfl, by simp, .inr (.inl ⟨hst, hillegal, by simp [hst], rfl⟩)⟩
    · refine ⟨_, rfl, by simp, .inr (.inr ?_)⟩
      by_cases hr : (s.link l).rem - 1#8 = 2#8 <;> simp [hst, hi, stAfterStore_eq, hr]
    · exact ⟨_, rfl, by simp, .inr (.inr (.inr (.inr (.inl ⟨hst, hi, by simp, rfl⟩))))⟩
    · exact ⟨_, rfl, by simp, .inr (.inr (.inr (.inr (.inr (.inl ⟨hst, by simpa using hr, by simp [hst], rfl⟩)))))⟩
    · refine ⟨_, rfl, by simp, .inr (.inr (.inr (.inr (.inr (.inr
        ⟨hst, by simpa using hr, by simp, _, bufSlice_idx (by simpa using hi), ?_⟩)))))⟩
      rw [collected_withOut, collected_setLink (by simp) (by simp)]
      by_cases hc : crc16Of s.params.crc (s.collected l) = accumulate (s.link l).acc b
      · exact .inl ⟨by simpa using hc, if_pos hc⟩
      · exact .inr ⟨by simpa using hc, if_neg hc⟩
  · rw [perform_sreset, Host.Outcome.next.injEq] at h
    subst h; simp
  · rw [perform_hreset, Host.Outcome.next.injEq] at h
    subst h
    exact ⟨fun l => by cases l <;> rfl, rfl⟩

end Sys2Proof.Machine

/-!
PROOFS. The frame-emission property (40_rx_framer.md R79): while a frame is being received, the registers and the
collected bytes are those of the bytes consumed since its length byte.
-/

namespace Sys2Proof.Machine

theorem accumulate_zero (b : Byte) : accumulate 0#16 b = b.setWidth 16 := by simp [accumulate]

/-- The high byte of a checksum received in full is the byte received first (30_encoding.md R54). -/
theorem accumulate_high (hi lo : Byte) : (accumulate (hi.setWidth 16) lo).extractLsb' 8 8 = hi := by
  ext i hbit
  simp [accumulate, show 8 + i < 16 by omega, BitVec.getLsbD_eq_getElem hbit]

/-- The low byte of a checksum received in full is the byte received last. -/
theorem accumulate_low (hi lo : Byte) : (accumulate (hi.setWidth 16) lo).extractLsb' 0 8 = lo := by
  ext i hbit
  simp [accumulate, show i < 16 by omega, hbit]

/-- Link `l` is in the middle of a frame that its length byte `n` began: `s.MidFrame l n got` says that `got` are the
bytes consumed after `n`, and what the registers hold then (10_state.md R17, from the bytes). -/
inductive State.MidFrame (s : State) (l : Link) (n : Byte) : List Byte → Prop
  /-- Inside the payload. -/
  | payload (st : (s.link l).st = .data) (count : (s.link l).idx + (s.link l).rem.toNat = n.toNat)
      (rem : 3 ≤ (s.link l).rem.toNat) (acc : (s.link l).acc = 0) : MidFrame s l n (s.collected l)
  /-- After the payload, before the checksum. -/
  | checksum (st : (s.link l).st = .checksum) (count : (s.link l).idx + 2 = n.toNat)
      (rem : (s.link l).rem = 2#8) (acc : (s.link l).acc = 0) : MidFrame s l n (s.collected l)
  /-- Before the last byte: the high checksum byte has been taken. -/
  | lastByte (hi : Byte) (st : (s.link l).st = .checksum) (count : (s.link l).idx + 2 = n.toNat)
      (rem : (s.link l).rem = 1#8) (acc : (s.link l).acc = hi.setWidth 16) : MidFrame s l n (s.collected l ++ [hi])

section
variable {s t : State} {l : Link} {b n : Byte} {got p : List Byte}

/-- A byte received in `Reset` leaves the link there or begins a frame as its length byte. -/
theorem rxbyte_from_reset (hst : (s.link l).st = .reset) (h : perform s (.rxbyte l b) = .next t) :
    (t.link l).st = .reset ∨ s.params.legalLength b.toNat = true ∧ t.MidFrame l b [] := by
  obtain ⟨-, ⟨-, hl, rfl⟩ | ⟨-, -, rfl⟩ | ⟨hst', -⟩ | ⟨hst', -⟩ | ⟨hst', -⟩ | ⟨hst', -⟩⟩ := rxbyte_cases h
  · refine .inr ⟨hl, ?_⟩
    have hgot := collected_of_idx_zero
      (s := (s.setLink l ((s.link l).startFrame b)).withOut (.event (some l) .none)) (l := l) (by simp)
    rw [← hgot]
    exact .payload (by simp) (by simp) (by simpa using (legalLength_iff.mp hl).1) (by simp)
  · exact .inl (by simpa using hst)
  all_goals simp [hst] at hst'

/-- A byte received in the middle of a frame ends it or is one byte more of it. -/
theorem rxbyte_from_midFrame (hmid : s.MidFrame l n got) (h : perform s (.rxbyte l b) = .next t) :
    (t.link l).st = .reset ∨ t.MidFrame l n (got ++ [b]) := by
  obtain ⟨-, hcase⟩ := rxbyte_cases h
  cases hmid with
  | payload hst hcount hrem hacc =>
    simp only [hst, reduceCtorEq, false_and, true_and, false_or, or_false] at hcase
    obtain ⟨-, rfl⟩ | ⟨-, rfl⟩ := hcase
    · right
      have hdec : ((s.link l).rem - 1#8).toNat = (s.link l).rem.toNat - 1 := by bv_omega
      rw [← collected_storeByte, ← collected_withOut _ _ (.event (some l) .none)]
      by_cases hend : (s.link l).rem - 1#8 = 2#8
      · have htwo : (s.link l).rem.toNat = 3 := by bv_omega
        exact .checksum (by simp [stAfterStore_eq, hend]) (by simp; omega) (by simpa using hend) (by simpa using hacc)
      · have hne : (s.link l).rem.toNat ≠ 3 := fun h3 => hend (by bv_omega)
        exact .payload (by simp [stAfterStore_eq, hend]) (by simp [hdec]; omega) (by simp [hdec]; omega)
          (by simpa using hacc)
    · exact .inl (by simp)
  | checksum hst hcount hrem hacc =>
    simp only [hst, reduceCtorEq, false_and, true_and, false_or] at hcase
    obtain ⟨-, rfl⟩ | ⟨hend, -⟩ := hcase
    · right
      rw [← collected_setLink (f := (s.link l).takeChecksumByte b) rfl rfl,
        ← collected_withOut _ _ (.event (some l) .none)]
      exact .lastByte b (by simpa using hst) (by simpa using hcount) (by simp [hrem]) (by simp [hacc, accumulate_zero])
    · simp [hrem] at hend
  | lastByte hi hst hcount hrem hacc =>
    simp only [hst, reduceCtorEq, false_and, true_and, false_or] at hcase
    obtain ⟨hmore, -⟩ | ⟨-, -, rfl⟩ := hcase
    · simp [hrem] at hmore
    · exact .inl (by simp)

/-- A delivery carries what was collected, and its checksum is the received one (40_rx_framer.md R76). -/
theorem delivery_verified (h : perform s (.rxbyte l b) = .next t) (hout : t.out = Result.ofLink l (.frameOk p)) :
    (s.link l).st = .checksum ∧ (s.link l).rem - 1#8 = 0#8 ∧ s.collected l = p ∧
      crc16Of s.params.crc p = accumulate (s.link l).acc b := by
  obtain ⟨-, ⟨-, -, rfl⟩ | ⟨-, -, rfl⟩ | ⟨-, -, rfl⟩ | ⟨-, -, rfl⟩ | ⟨-, -, rfl⟩ | ⟨hst, hrem, -, rfl⟩⟩ :=
    rxbyte_cases h
  pick_goal 6
  · rw [withOut_out] at hout
    split at hout
    · next hcrc =>
      obtain rfl : s.collected l = p := by simpa [Result.ofLink, State.collected] using hout
      exact ⟨hst, hrem, rfl, hcrc⟩
    · simp [Result.ofLink] at hout
  all_goals simp [Result.ofLink] at hout

/-- A delivery in the middle of a frame: the bytes consumed are the payload and the high checksum byte, as many as the
length byte says, and the byte that delivers is the low one. -/
theorem State.MidFrame.of_delivery (hmid : s.MidFrame l n got) (h : perform s (.rxbyte l b) = .next t)
    (hout : t.out = Result.ofLink l (.frameOk p)) :
    got = p ++ [(crc16Of s.params.crc p).extractLsb' 8 8] ∧ b = (crc16Of s.params.crc p).extractLsb' 0 8 ∧
      p.length + 2 = n.toNat := by
  obtain ⟨hst, hend, rfl, hcrc⟩ := delivery_verified h hout
  cases hmid with
  | payload hst' => simp [hst] at hst'
  | checksum _ _ hrem => simp [hrem] at hend
  | lastByte hi _ hcount _ hacc =>
    rw [hacc] at hcrc
    rw [hcrc, accumulate_high, accumulate_low, collected_length]
    exact ⟨rfl, rfl, hcount⟩

end

/-- The bytes `bs`, received on link `l` from the state `s`, end in a frame: those before the length byte `n` lead to
`Reset`, `n` is legal, and `got` are those after it. -/
def EndsInFrame (s : State) (l : Link) (bs : List Byte) (n : Byte) (got : List Byte) : Prop :=
  ∃ before ys u, bs = before ++ n :: got ∧ performs s (rxBytes l before) = some (ys, u) ∧ (u.link l).st = .reset ∧
    s.params.legalLength n.toNat = true

theorem EndsInFrame.concat {s : State} {l : Link} {bs : List Byte} {n : Byte} {got : List Byte}
    (h : EndsInFrame s l bs n got) (b : Byte) : EndsInFrame s l (bs ++ [b]) n (got ++ [b]) := by
  obtain ⟨before, ys, u, rfl, hrun, hst, hlegal⟩ := h
  exact ⟨before, ys, u, by simp, hrun, hst, hlegal⟩

/-- What holds of a link after any bytes received from `Reset`: it is in `Reset`, or in the middle of the frame that
those bytes end in. -/
theorem rxBytes_from_reset {s t : State} {l : Link} {bs : List Byte} {xs : List Result}
    (hst : (s.link l).st = .reset) (h : performs s (rxBytes l bs) = some (xs, t)) :
    t.params = s.params ∧
      ((t.link l).st = .reset ∨ ∃ n got, EndsInFrame s l bs n got ∧ t.MidFrame l n got) := by
  induction bs using List.reverseRecOn generalizing xs t with
  | nil => cases h; exact ⟨rfl, .inl hst⟩
  | append_singleton bs b ih =>
    obtain ⟨u, ys, hrun, hb, -⟩ := performs_rxBytes_concat.mp h
    obtain ⟨hparams, hu⟩ := ih hrun
    refine ⟨(rxbyte_keeps_params hb).trans hparams, ?_⟩
    rcases hu with hreset | ⟨n, got, hends, hmid⟩
    · exact (rxbyte_from_reset hreset hb).imp_right fun ⟨hlegal, hmid⟩ =>
        ⟨b, [], ⟨bs, ys, u, rfl, hrun, hreset, hparams ▸ hlegal⟩, hmid⟩
    · exact (rxbyte_from_midFrame hmid hb).imp_right fun hmid' => ⟨n, got ++ [b], hends.concat b, hmid'⟩

/-- Settles O43: before the byte that delivers, the link is in the middle of the frame that the bytes so far end in. -/
theorem deliveryMatchesTheBytesConsumed : Obligations.DeliveryMatchesTheBytesConsumed := by
  intro s t l bs xs k p hst hrun hx
  obtain ⟨b, u, v, ys, hb, htake, hperf, hout⟩ := performs_rxBytes_getElem? hrun hx
  obtain ⟨hparams, hreset | ⟨n, got, ⟨before, zs, w, hbytes, hbefore, hw, hlegal⟩, hmid⟩⟩ :=
    rxBytes_from_reset hst htake
  · have hck := (delivery_verified hperf hout).1
    simp [hreset] at hck
  obtain ⟨rfl, rfl, hlen⟩ := hmid.of_delivery hperf hout
  rw [hparams] at hbytes hb
  obtain ⟨hmin, hmax⟩ := legalLength_iff.mp hlegal
  obtain ⟨hk, hlow⟩ := List.getElem?_eq_some_iff.mp hb
  have hpos : k = before.length + n.toNat := by
    have := congrArg List.length hbytes
    simp [Nat.min_eq_left hk.le] at this
    omega
  have hbs := List.take_append_drop k bs
  rw [hbytes, ← List.getElem_cons_drop hk, hlow] at hbs
  refine ⟨before.length, n, zs, w, ?_, ?_, hw, hmin, hmax, hpos, by omega, ?_, ?_, hb⟩
  · rw [← hbs]; simp
  · rw [← hbs]; simpa using hbefore
  · rw [← hbs, ← hlen]; simp [List.drop_append, List.drop_eq_nil_of_le]
  · rw [← hbs, hpos, ← hlen]; simp

end Sys2Proof.Machine

/-!
PROOFS. The Integrity Codec (41_integrity_codec.md R91, R92, R94). The table form of `CRCUPD` rests on two facts about
the shifts of the checksum register: they are linear over exclusive or, and while no 1 leaves the high end the
polynomial does not enter.
-/

namespace Sys2Proof.Machine

section
variable (s : State) (c : U16) (b : Byte) (xs : List Byte) (r : U16)

theorem exec_crc16 : exec (.crc16 xs) s = .next (s.withOut (.word (crc16Of s.params.crc xs))) := rfl

theorem exec_crcupd : exec (.crcupd c b) s = .next (s.withOut (.word (crcUpd s.params.crc c b))) := rfl

theorem exec_verify : exec (.verify xs r) s = .next (s.withOut (.verdict (verifyOf s.params.crc xs r))) := rfl

end

section
variable (poly c d : U16) (k : Nat)

/-- The shifts are the iterate of one shift (41_integrity_codec.md R92: "repeat 8 times"). -/
theorem crcShifts_eq_iterate : crcShifts poly k c = (crcShift poly)^[k] c := by
  induction k generalizing c with
  | zero => rfl
  | succ k ih => exact ih (crcShift poly c)

theorem crcShift_eq_xor : crcShift poly c = c <<< 1 ^^^ if c.getLsbD 15 then poly else 0#16 := by
  unfold crcShift; split <;> simp

/-- One shift is linear: the polynomial enters as often as the high bits say, and twice cancels. -/
theorem crcShift_xor : crcShift poly (c ^^^ d) = crcShift poly c ^^^ crcShift poly d := by
  have henter : (if (c ^^^ d).getLsbD 15 then poly else 0#16) =
      (if c.getLsbD 15 then poly else 0#16) ^^^ if d.getLsbD 15 then poly else 0#16 := by
    rw [BitVec.getLsbD_xor]
    cases c.getLsbD 15 <;> cases d.getLsbD 15 <;> simp
  simp only [crcShift_eq_xor, henter, BitVec.shiftLeft_xor_distrib]
  ac_rfl

theorem crcShifts_xor : crcShifts poly k (c ^^^ d) = crcShifts poly k c ^^^ crcShifts poly k d := by
  induction k generalizing c d with
  | zero => rfl
  | succ k ih => simp only [crcShifts, crcShift_xor, ih]

variable {c k}

/-- Shifts that push out only zeros are a plain shift, whatever the polynomial. -/
theorem crcShifts_of_high_zero (h : ∀ i < k, c.getMsbD i = false) : crcShifts poly k c = c <<< k := by
  induction k generalizing c with
  | zero => simp [crcShifts]
  | succ k ih =>
    have hshift : crcShift poly c = c <<< 1 :=
      if_neg (by simpa [BitVec.getMsbD_eq_getLsbD] using h 0 k.succ_pos)
    have hrest : ∀ i < k, (c <<< 1).getMsbD i = false := fun i hi => by simp [h (i + 1) (by omega)]
    calc crcShifts poly (k + 1) c
        = crcShifts poly k (c <<< 1) := by rw [crcShifts, hshift]
      _ = c <<< 1 <<< k := ih hrest
      _ = c <<< (k + 1) := by rw [← BitVec.shiftLeft_add, Nat.add_comm]

end

/-- The register as its high byte, in place, and its low byte. -/
theorem high_xor_low (c : U16) : ((c >>> 8).setWidth 8).setWidth 16 <<< 8 ^^^ (c.setWidth 8).setWidth 16 = c := by
  ext i hi
  by_cases hlow : i < 8
  · simp [hlow, BitVec.getLsbD_eq_getElem hi]
  · simp [hlow, show i - 8 < 8 by omega, show 8 + (i - 8) = i by omega, BitVec.getLsbD_eq_getElem hi]

/-- What leaves the low byte alone after eight shifts is the register shifted by 8. -/
theorem low_shiftLeft (c : U16) : (c.setWidth 8).setWidth 16 <<< 8 = c <<< 8 := by
  ext i hi
  by_cases hlow : i < 8
  · simp [hlow]
  · simp [hlow, show i - 8 < 8 by omega, BitVec.getLsbD_eq_getElem (show i - 8 < 16 by omega)]

/-- The table form of `CRCUPD` is the bit-serial one (41_integrity_codec.md R92): the high byte and the input reach the
polynomial together, and the low byte never does. -/
theorem crcUpd_eq_crcUpdTable (k : CrcParams) (c : U16) (b : Byte) : crcUpd k c b = crcUpdTable k c b := by
  set hi : Byte := (c >>> 8).setWidth 8
  set lo : U16 := (c.setWidth 8).setWidth 16
  set x : Byte := crcInput k b
  have hsplit : c ^^^ x.setWidth 16 <<< 8 = lo ^^^ (hi ^^^ x).setWidth 16 <<< 8 := by
    rw [BitVec.setWidth_xor, BitVec.shiftLeft_xor_distrib, ← BitVec.xor_assoc, BitVec.xor_comm lo, high_xor_low]
  have hzero : ∀ i < 8, lo.getMsbD i = false := fun i hi => by
    simp [lo, BitVec.getMsbD_eq_getLsbD, show ¬ 15 - i < 8 by omega]
  calc crcUpd k c b
      = crcShifts k.poly 8 (lo ^^^ (hi ^^^ x).setWidth 16 <<< 8) := by rw [← hsplit]; rfl
    _ = lo <<< 8 ^^^ crcTable k.poly (hi ^^^ x) := by rw [crcShifts_xor, crcShifts_of_high_zero _ hzero]; rfl
    _ = crcUpdTable k c b := by rw [low_shiftLeft]; rfl

/-- Settles O12. -/
theorem crcUpdIsTheByteStepAndItsTable : Obligations.CrcUpdIsTheByteStepAndItsTable := by
  refine ⟨fun c b s => ⟨?_, ?_⟩, fun poly i => crcShifts_eq_iterate poly _ 8⟩
  · rw [exec_crcupd, crcUpd, crcShifts_eq_iterate]; rfl
  · rw [exec_crcupd, crcUpd_eq_crcUpdTable]; rfl

/-- Bit `i` of a reflected value is its bit `w - 1 - i` (41_integrity_codec.md R91). -/
theorem getLsbD_reverse_of_lt {w : Nat} (v : BitVec w) {i : Nat} (h : i < w) :
    v.reverse.getLsbD i = v.getLsbD (w - 1 - i) := by
  rw [BitVec.getLsbD_reverse, BitVec.getMsbD_eq_getLsbD, decide_eq_true h, Bool.true_and]

/-- Settles O11. -/
theorem crc16ReturnsTheFold : Obligations.Crc16ReturnsTheFold :=
  ⟨fun xs s => exec_crc16 s xs, fun v _ h => getLsbD_reverse_of_lt v h, fun v _ h => getLsbD_reverse_of_lt v h⟩

/-- Settles O13. -/
theorem verifyComparesTheChecksum : Obligations.VerifyComparesTheChecksum := fun xs r s => exec_verify s xs r

end Sys2Proof.Machine

/-!
PROOFS. The frame encoder (42_tx_encoder.md R110, R111): which payloads it can frame, the frame it makes of one, and
what `TXENC` does with either kind of payload.
-/

namespace Sys2Proof.Machine

theorem framable_iff {p : Params} {q : List Byte} :
    framable p q = true ↔ 1 ≤ q.length ∧ q.length + 3 ≤ p.maxPacketSize := decide_eq_true_iff

/-- The bounds on `MAX_PACKET_SIZE` of a well-formed device (00_scope.md R5). -/
theorem Params.maxPacketSize_of_wf {p : Params} (h : p.wf = true) : 4 ≤ p.maxPacketSize ∧ p.maxPacketSize ≤ 256 := by
  obtain ⟨hmin, hmax, -⟩ := of_decide_eq_true h
  exact ⟨hmin, hmax⟩

/-- The checksum bytes of a frame are bits 15..8 and then bits 7..0 (42_tx_encoder.md R110). -/
theorem wireFrame_eq (q : List Byte) (c : U16) :
    wireFrame q c = [BitVec.ofNat 8 (q.length + 2)] ++ q ++ [c.extractLsb' 8 8, c.extractLsb' 0 8] := by
  have hlow : c.setWidth 8 = c.extractLsb' 0 8 := BitVec.setWidth_eq_extractLsb' (by decide)
  rw [wireFrame, hlow]; rfl

@[simp] theorem wireFrame_length (q : List Byte) (c : U16) : (wireFrame q c).length = q.length + 3 := by
  simp [wireFrame]

section
variable {s : State} {q : List Byte}

theorem exec_txenc_of_framable (h : framable s.params q = true) :
    exec (.txenc q) s = .next (s.withOut (.frame (wireFrame q (crc16Of s.params.crc q)))) := if_pos h

theorem exec_txenc_of_not_framable (h : ¬ framable s.params q = true) :
    exec (.txenc q) s = .next (s.withOut (.event none .txRefused)) := if_neg h

end

/-- Settles O9: the largest payload has `MAX_PACKET_SIZE - 3 <= 253` bytes, so the length fits its byte. -/
theorem txencReturnsTheFrame : Obligations.TxencReturnsTheFrame := by
  intro q s hwf hmin hmax
  obtain ⟨hleast, hmost⟩ := Params.maxPacketSize_of_wf hwf
  have hN : (BitVec.ofNat 8 (q.length + 2)).toNat = q.length + 2 :=
    (BitVec.toNat_ofNat ..).trans (Nat.mod_eq_of_lt (by omega))
  refine ⟨BitVec.ofNat 8 (q.length + 2), hN, ?_, ?_⟩
  · rw [← wireFrame_eq]
    exact exec_txenc_of_framable (framable_iff.mpr ⟨hmin, by omega⟩)
  · rw [← wireFrame_eq, wireFrame_length, hN]

/-- Settles O10. -/
theorem txencRefusesUnframeablePayload : Obligations.TxencRefusesUnframeablePayload := by
  intro q s hwf hbad
  obtain ⟨hleast, -⟩ := Params.maxPacketSize_of_wf hwf
  exact exec_txenc_of_not_framable (by rw [framable_iff]; omega)

end Sys2Proof.Machine

/-!
PROOFS. The session reset (43_session_control.md R120, R122): what `SRESET` makes of a framer, and that it does so to
its own link and leaves the rest of the state.
-/

namespace Sys2Proof.Machine

/-- A session reset overwrites every register of the framer and keeps its buffer (43_session_control.md R120). -/
theorem sessionReset_eq (f : Framer) :
    f.sessionReset = { f with st := .reset, rem := 0#8, idx := 0, acc := 0x0000#16 } := rfl

/-- `SRESET` is legal in every state and replaces its own link's framer alone (43_session_control.md R120, R122). -/
theorem exec_sreset (s : State) (l : Link) :
    exec (.sreset l) s = .next ((s.setLink l (s.link l).sessionReset).withOut (.event (some l) .none)) := rfl

/-- Settles O7: the framer that `SRESET` writes back, with its registers written out. -/
theorem sessionResetClearsOneLink : Obligations.SessionResetClearsOneLink := by
  intro l s
  rw [exec_sreset, sessionReset_eq]

end Sys2Proof.Machine

/-!
PROOFS. The hard reset (70_reset_and_hazards.md R150, R151): the state `HRESET` leads to, and how the first byte of a
link is read there.
-/

namespace Sys2Proof.Machine

/-- The state that `HRESET` leads to (70_reset_and_hazards.md R150); `exec_hreset` ties it to the model. -/
def State.hardReset (s : State) : State :=
  { s with
    hostLink := Framer.afterHreset
    boardLink := Framer.afterHreset
    hresetDone := true
    epoch := s.epoch + 1
    out := .event none .none }

section
variable (s : State) (l : Link)

/-- `HRESET` is legal at any time (70_reset_and_hazards.md R150). -/
theorem exec_hreset : exec .hreset s = .next s.hardReset := rfl

@[simp] theorem hardReset_link : s.hardReset.link l = Framer.afterHreset := by cases l <;> rfl
@[simp] theorem hardReset_params : s.hardReset.params = s.params := rfl
@[simp] theorem hardReset_hresetDone : s.hardReset.hresetDone = true := rfl
@[simp] theorem hardReset_out : s.hardReset.out = .event none .none := rfl
@[simp] theorem hardReset_inbox : s.hardReset.inbox = s.inbox := rfl

end

/-- No cell of a buffer is known after `HRESET` (10_state.md R23). -/
theorem afterHreset_get (i : Nat) : Framer.afterHreset.buf.get i = none := rfl

/-- Settles O8. -/
theorem hardResetClearsBothLinks : Obligations.HardResetClearsBothLinks := by
  refine fun s => ⟨s.hardReset, exec_hreset s, hardReset_out s, hardReset_hresetDone s, hardReset_params s,
    hardReset_inbox s, fun l => ?_⟩
  rw [hardReset_link]
  exact ⟨rfl, rfl, rfl, rfl, afterHreset_get⟩

section
variable {s : State} {l : Link} {b : Byte}

/-- A legal length byte that arrives in `Reset` starts a frame (40_rx_framer.md R70, R71). -/
theorem perform_rxbyte_of_legal (hd : s.hresetDone = true) (hst : (s.link l).st = .reset)
    (hlegal : 3 ≤ b.toNat ∧ b.toNat < s.params.maxPacketSize) :
    perform s (.rxbyte l b) = .next ((s.setLink l ((s.link l).startFrame b)).withOut (Result.ofLink l .none)) := by
  rw [perform_eq, decode_rxbyte_accept hst (legalLength_iff.mpr hlegal)]
  exact legalLengthStartsFrame l b s hd hst hlegal.1 hlegal.2

/-- An illegal length byte that arrives in `Reset` is rejected (40_rx_framer.md R70, R72). -/
theorem perform_rxbyte_of_illegal (hd : s.hresetDone = true) (hst : (s.link l).st = .reset)
    (hillegal : ¬ (3 ≤ b.toNat ∧ b.toNat < s.params.maxPacketSize)) :
    perform s (.rxbyte l b) = .next (s.withOut (Result.ofLink l .lenReject)) := by
  rw [perform_eq, decode_rxbyte_reject hst (Bool.eq_false_iff.mpr (mt legalLength_iff.mp hillegal))]
  exact illegalLengthChangesNothing l b s hd hst (by omega)

/-- An operation that follows `HRESET` is performed in the state that `HRESET` leads to. -/
theorem performs_hreset_then {t : State} {r : Request} (h : perform s.hardReset r = .next t) :
    performs s [.hreset, r] = some ([.event none .none, t.out], t) :=
  (performs_cons ..).mpr ⟨s.hardReset, [t.out], perform_hreset s, performs_singleton.mpr ⟨h, rfl⟩, rfl⟩

end

/-- Settles O49: after `HRESET` the link is in `Reset`, where a byte is read as a length byte. -/
theorem firstByteAfterHresetIsALength : Obligations.FirstByteAfterHresetIsALength := by
  intro s l b
  have hd := hardReset_hresetDone s
  have hst : (s.hardReset.link l).st = .reset := by rw [hardReset_link]; rfl
  by_cases hlegal : 3 ≤ b.toNat ∧ b.toNat < s.params.maxPacketSize
  · have hrun := performs_hreset_then (perform_rxbyte_of_legal hd hst hlegal)
    rw [if_pos hlegal, if_pos hlegal]
    exact ⟨_, hrun, by simp⟩
  · have hrun := performs_hreset_then (perform_rxbyte_of_illegal hd hst hlegal)
    rw [if_neg hlegal, if_neg hlegal]
    exact ⟨_, hrun, by simpa using hst⟩

end Sys2Proof.Machine

/-!
PROOFS. What every operation does, as one equation: the state that it leads to, and when it can be performed. The rows
of `RXBYTE` are put together from the statements about each of them (40_rx_framer.md R70 to R76).
-/

namespace Sys2Proof.Machine

/-- Settles O5. -/
theorem checksumByteAccumulates : Obligations.ChecksumByteAccumulates := by
  intro l b s hd hst hrem
  have hsel : (Instr.rxbyteCks l b).selected s.params s.view = true := by simp [Instr.selected, hst]
  have hmore : ¬ frameEnds ((s.link l).takeChecksumByte b).rem = true := by
    rw [takeChecksumByte_rem, frameEnds, decide_eq_true_iff, BitVec.sub_eq_iff_eq_add]
    simpa using hrem
  exact (guardRx_of_selected hd hsel).trans (if_neg hmore)

/-- What a received byte makes of a framer that has collected `payload`, and the event it yields: the six outcomes of
`RXBYTE` (40_rx_framer.md R70 to R76); `perform_rxbyte_iff` ties it to the model. -/
def Framer.receive (p : Params) (payload : List Byte) (f : Framer) (b : Byte) : Framer × Event :=
  match f.st with
  | .reset => if p.legalLength b.toNat then (f.startFrame b, .none) else (f, .lenReject)
  | .data => if f.idx < p.bufCapacity then (f.storeByte b, .none) else (f.toReset, .overflow)
  | .checksum =>
    if f.rem = 1#8 then
      ((f.takeChecksumByte b).toReset,
        if crc16Of p.crc payload = accumulate f.acc b then .frameOk payload else .frameBad)
    else (f.takeChecksumByte b, .none)

section
variable {p : Params} {payload : List Byte} {f : Framer} {b : Byte}

theorem receive_of_legal (hst : f.st = .reset) (hl : p.legalLength b.toNat = true) :
    f.receive p payload b = (f.startFrame b, .none) := by simp [Framer.receive, hst, hl]

theorem receive_of_illegal (hst : f.st = .reset) (hl : p.legalLength b.toNat = false) :
    f.receive p payload b = (f, .lenReject) := by simp [Framer.receive, hst, hl]

theorem receive_of_room (hst : f.st = .data) (hidx : f.idx < p.bufCapacity) :
    f.receive p payload b = (f.storeByte b, .none) := by simp [Framer.receive, hst, hidx]

theorem receive_of_full (hst : f.st = .data) (hidx : p.bufCapacity ≤ f.idx) :
    f.receive p payload b = (f.toReset, .overflow) := by simp [Framer.receive, hst, Nat.not_lt.mpr hidx]

theorem receive_of_more (hst : f.st = .checksum) (hrem : f.rem ≠ 1#8) :
    f.receive p payload b = (f.takeChecksumByte b, .none) := by simp [Framer.receive, hst, hrem]

theorem receive_of_last (hst : f.st = .checksum) (hrem : f.rem = 1#8) :
    f.receive p payload b = ((f.takeChecksumByte b).toReset,
      if crc16Of p.crc payload = accumulate f.acc b then .frameOk payload else .frameBad) := by
  simp [Framer.receive, hst, hrem]

/-- The six outcomes of a received byte, as a case distinction. -/
theorem receive_cases (p : Params) (payload : List Byte) (f : Framer) (b : Byte) :
    (f.st = .reset ∧ p.legalLength b.toNat = true ∧ f.receive p payload b = (f.startFrame b, .none)) ∨
    (f.st = .reset ∧ p.legalLength b.toNat = false ∧ f.receive p payload b = (f, .lenReject)) ∨
    (f.st = .data ∧ f.idx < p.bufCapacity ∧ f.receive p payload b = (f.storeByte b, .none)) ∨
    (f.st = .data ∧ p.bufCapacity ≤ f.idx ∧ f.receive p payload b = (f.toReset, .overflow)) ∨
    (f.st = .checksum ∧ f.rem ≠ 1#8 ∧ f.receive p payload b = (f.takeChecksumByte b, .none)) ∨
    (f.st = .checksum ∧ f.rem = 1#8 ∧ f.receive p payload b = ((f.takeChecksumByte b).toReset,
      if crc16Of p.crc payload = accumulate f.acc b then .frameOk payload else .frameBad)) := by
  cases hst : f.st
  case reset =>
    cases hl : p.legalLength b.toNat
    · simp [receive_of_illegal hst hl]
    · simp [receive_of_legal hst hl]
  case data =>
    by_cases hidx : f.idx < p.bufCapacity
    · simp [receive_of_room hst hidx, hidx]
    · simp [receive_of_full hst (Nat.not_lt.mp hidx), Nat.not_lt.mp hidx]
  case checksum =>
    by_cases hrem : f.rem = 1#8
    · simp [receive_of_last hst hrem, hrem]
    · simp [receive_of_more hst hrem, hrem]

/-- No received byte yields `EV_TX_REFUSED` (60_exceptions.md R131). -/
theorem receive_ne_txRefused : (f.receive p payload b).2 ≠ .txRefused := by
  obtain ⟨-, -, h⟩ | ⟨-, -, h⟩ | ⟨-, -, h⟩ | ⟨-, -, h⟩ | ⟨-, -, h⟩ | ⟨-, -, h⟩ := receive_cases p payload f b
  case inr.inr.inr.inr.inr => rw [h]; dsimp only; split <;> simp
  all_goals simp [h]

end

/-- The state after a byte was received on a link. -/
def State.received (s : State) (l : Link) (b : Byte) : State :=
  (s.setLink l ((s.link l).receive s.params (s.collected l) b).1).withOut
    (.event (some l) ((s.link l).receive s.params (s.collected l) b).2)

/-- When a byte can be received on a link: after an `HRESET`, and a completion only with `idx` in its range (10_state.md
R13, 70_reset_and_hazards.md R152). -/
def State.canReceive (s : State) (l : Link) : Prop :=
  s.hresetDone = true ∧ ((s.link l).st = .checksum → (s.link l).rem = 1#8 → (s.link l).idx ≤ s.params.bufCapacity)

section
variable {s t : State} {l : Link} {b : Byte}

theorem perform_rxbyte_of_canReceive (h : s.canReceive l) : perform s (.rxbyte l b) = .next (s.received l b) := by
  obtain ⟨hd, hrange⟩ := h
  rw [perform_eq, State.received]
  obtain ⟨hst, hl, hf⟩ | ⟨hst, hl, hf⟩ | ⟨hst, hi, hf⟩ | ⟨hst, hi, hf⟩ | ⟨hst, hr, hf⟩ | ⟨hst, hr, hf⟩ :=
    receive_cases s.params (s.collected l) (s.link l) b
  all_goals rw [hf]
  · obtain ⟨hmin, hmax⟩ := legalLength_iff.mp hl
    rw [decode_rxbyte_accept hst hl, legalLengthStartsFrame l b s hd hst hmin hmax]; rfl
  · have hbad := mt legalLength_iff.mpr (Bool.eq_false_iff.mp hl)
    rw [decode_rxbyte_reject hst hl, illegalLengthChangesNothing l b s hd hst (by omega), setLink_same]
  · rw [decode_rxbyte_store hst hi, payloadByteIsStored l b s hd hst hi, storeByte_eq]
  · rw [decode_rxbyte_overflow hst hi, fullBufferOverflows l b s hd hst hi]; rfl
  · rw [decode_rxbyte_cks hst, checksumByteAccumulates l b s hd hst hr]; rfl
  · have hend : ((s.link l).takeChecksumByte b).rem = 0#8 := by simp [hr]
    rw [decode_rxbyte_cks hst, lastChecksumByteCompletes l b s hd hst hr (hrange hst hr), ← hend]; rfl

/-- `RXBYTE` in one equation (40_rx_framer.md R70). -/
theorem perform_rxbyte_iff : perform s (.rxbyte l b) = .next t ↔ s.canReceive l ∧ t = s.received l b := by
  constructor
  · intro h
    have hcan : s.canReceive l := by
      obtain ⟨hd, hcase⟩ := rxbyte_cases h
      refine ⟨hd, fun hst hrem => ?_⟩
      simp only [hst, hrem, reduceCtorEq, false_and, false_or, true_and, BitVec.sub_self, ne_eq,
        not_true_eq_false] at hcase
      exact hcase.1
    rw [perform_rxbyte_of_canReceive hcan, Host.Outcome.next.injEq] at h
    exact ⟨hcan, h.symm⟩
  · rintro ⟨hcan, rfl⟩
    exact perform_rxbyte_of_canReceive hcan

theorem canReceive_of_idx (hd : s.hresetDone = true) (hidx : (s.link l).idx ≤ s.params.bufCapacity) :
    s.canReceive l := ⟨hd, fun _ _ => hidx⟩

@[simp] theorem received_link : (s.received l b).link l = ((s.link l).receive s.params (s.collected l) b).1 := by
  simp [State.received]

theorem received_link_of_ne {l' : Link} (h : l' ≠ l) : (s.received l b).link l' = s.link l' := by
  simp [State.received, setLink_of_ne _ _ _ _ h]

@[simp] theorem received_out : (s.received l b).out =
    .event (some l) ((s.link l).receive s.params (s.collected l) b).2 := rfl
@[simp] theorem received_params : (s.received l b).params = s.params := by simp [State.received]
@[simp] theorem received_hresetDone : (s.received l b).hresetDone = s.hresetDone := by simp [State.received]
@[simp] theorem received_epoch : (s.received l b).epoch = s.epoch := by simp [State.received]

end

/-- The state after a session reset of a link. -/
def State.sessionReset (s : State) (l : Link) : State :=
  (s.setLink l (s.link l).sessionReset).withOut (.event (some l) .none)

section
variable (s : State) (l : Link)

@[simp] theorem State.sessionReset_link : (s.sessionReset l).link l = (s.link l).sessionReset := by
  simp [State.sessionReset]

theorem State.sessionReset_link_of_ne {l' : Link} (h : l' ≠ l) : (s.sessionReset l).link l' = s.link l' := by
  simp [State.sessionReset, setLink_of_ne _ _ _ _ h]

@[simp] theorem State.sessionReset_out : (s.sessionReset l).out = .event (some l) .none := rfl
@[simp] theorem State.sessionReset_params : (s.sessionReset l).params = s.params := by simp [State.sessionReset]
@[simp] theorem State.sessionReset_hresetDone : (s.sessionReset l).hresetDone = s.hresetDone := by
  simp [State.sessionReset]
@[simp] theorem State.sessionReset_epoch : (s.sessionReset l).epoch = s.epoch := by simp [State.sessionReset]

end

/-- What `TXENC` yields (42_tx_encoder.md R110, R111). -/
def txencResult (p : Params) (q : List Byte) : Result :=
  if framable p q then .frame (wireFrame q (crc16Of p.crc q)) else .event none .txRefused

/-- The state that an operation leads to, where it can be performed; `perform_iff` ties it to the model. -/
def State.after (s : State) : Request → State
  | .rxbyte l b => s.received l b
  | .sreset l => s.sessionReset l
  | .hreset => s.hardReset
  | .txenc q => s.withOut (txencResult s.params q)
  | .crc16 xs => s.withOut (.word (crc16Of s.params.crc xs))
  | .crcupd c b => s.withOut (.word (crcUpd s.params.crc c b))
  | .verify xs r => s.withOut (.verdict (verifyOf s.params.crc xs r))

/-- When an operation can be performed: only `RXBYTE` has a condition. -/
def State.canPerform (s : State) : Request → Prop
  | .rxbyte l _ => s.canReceive l
  | .sreset _ => True
  | .hreset => True
  | .txenc _ => True
  | .crc16 _ => True
  | .crcupd _ _ => True
  | .verify _ _ => True

section
variable {s t : State} {r : Request}

theorem perform_txenc (s : State) (q : List Byte) :
    perform s (.txenc q) = .next (s.withOut (txencResult s.params q)) := by
  rw [perform_eq, txencResult]
  by_cases hq : framable s.params q = true
  · rw [if_pos hq]; exact exec_txenc_of_framable hq
  · rw [if_neg hq]; exact exec_txenc_of_not_framable hq

theorem perform_of_canPerform (h : s.canPerform r) : perform s r = .next (s.after r) := by
  cases r with
  | rxbyte l b => exact perform_rxbyte_of_canReceive h
  | sreset l => exact perform_sreset s l
  | hreset => exact perform_hreset s
  | txenc q => exact perform_txenc s q
  | crc16 xs => rw [perform_eq]; exact exec_crc16 s xs
  | crcupd c b => rw [perform_eq]; exact exec_crcupd s c b
  | verify xs c => rw [perform_eq]; exact exec_verify s xs c

/-- Every operation in one equation. -/
theorem perform_iff : perform s r = .next t ↔ s.canPerform r ∧ t = s.after r := by
  constructor
  · intro h
    have hcan : s.canPerform r := by
      cases r with
      | rxbyte l b => exact (perform_rxbyte_iff.mp h).1
      | _ => trivial
    rw [perform_of_canPerform hcan, Host.Outcome.next.injEq] at h
    exact ⟨hcan, h.symm⟩
  · rintro ⟨hcan, rfl⟩
    exact perform_of_canPerform hcan

/-- An operation of another link, the encoder or the codec leaves a link's framer. -/
theorem after_link_of_not_onLink {l : Link} (hr : onLink l r = false) (hne : r ≠ .hreset) :
    (s.after r).link l = s.link l := by
  cases r with
  | rxbyte l' b => exact received_link_of_ne (Ne.symm (of_decide_eq_false hr))
  | sreset l' => exact State.sessionReset_link_of_ne s l' (Ne.symm (of_decide_eq_false hr))
  | hreset => exact absurd rfl hne
  | _ => exact withOut_link ..

theorem after_params : (s.after r).params = s.params := by
  cases r with
  | rxbyte l b => exact received_params
  | sreset l => exact State.sessionReset_params s l
  | _ => rfl

/-- Exactly `HRESET` marks the boot (log 7). -/
theorem after_hresetDone : (s.after r).hresetDone = (s.hresetDone || decide (r = .hreset)) := by
  cases r with
  | rxbyte l b => simp [State.after]
  | sreset l => simp [State.after]
  | hreset => simp [State.after]
  | _ => simp [State.after]

/-- Exactly `HRESET` starts a new epoch of free bytes (log 3). -/
theorem after_epoch : (s.after r).epoch = if r = .hreset then s.epoch + 1 else s.epoch := by
  cases r with
  | rxbyte l b => simp [State.after]
  | sreset l => simp [State.after]
  | hreset => rfl
  | _ => rfl

end

end Sys2Proof.Machine

/-!
PROOFS. The invariant of the framers (10_state.md R17), the canonical form of the buffers (20_memory.md R31), and what
follows for every step: each is kept by every move a framer can make.
-/

namespace Sys2Proof.Machine

/-- What one operation, or none, can make of one link's framer. -/
inductive Framer.Moves (p : Params) (f : Framer) : Framer → Prop
  | stay : Moves p f f
  | receive (payload : List Byte) (b : Byte) : Moves p f (f.receive p payload b).1
  | sessionReset : Moves p f f.sessionReset
  | hardReset : Moves p f Framer.afterHreset

theorem after_moves (s : State) (r : Request) (l : Link) : (s.link l).Moves s.params ((s.after r).link l) := by
  by_cases hown : onLink l r = false ∧ r ≠ .hreset
  · rw [after_link_of_not_onLink hown.1 hown.2]
    exact .stay
  · cases r with
    | rxbyte l' b =>
      obtain rfl : l' = l := by simpa [onLink] using hown
      rw [State.after, received_link]
      exact .receive ..
    | sreset l' =>
      obtain rfl : l' = l := by simpa [onLink] using hown
      rw [State.after, State.sessionReset_link]
      exact .sessionReset
    | hreset => rw [State.after, hardReset_link]; exact .hardReset
    | _ => simp [onLink] at hown

/-- A step keeps the parameters, and each framer makes one of its moves. -/
theorem step_moves {s t : State} (h : step s = .next t) :
    t.params = s.params ∧ ∀ l, (s.link l).Moves s.params (t.link l) := by
  obtain ⟨-, rfl⟩ | ⟨rest, -, rfl⟩ | ⟨r, rest, -, hperf⟩ := step_cases h
  · exact ⟨rfl, fun _ => .stay⟩
  · exact ⟨rfl, fun l => by rw [takeInstant_link]; exact .stay⟩
  · obtain ⟨-, rfl⟩ := perform_iff.mp hperf
    exact ⟨after_params, fun l => by simpa using after_moves (s.takeInstant rest) r l⟩

theorem toNat_accumulate_zero (b : Byte) : (accumulate 0#16 b).toNat < 256 := by
  rw [accumulate_zero]
  simpa using Nat.lt_of_le_of_lt (Nat.mod_le ..) b.isLt

section
variable {p : Params} {f g : Framer} {b : Byte}

/-- In `Reset` the invariant asks for the buffer and the index alone. -/
theorem Framer.Inv.of_reset (hf : f.Inv p) (hst : g.st = .reset) (hbuf : g.buf = f.buf) (hidx : g.idx ≤ f.idx) :
    g.Inv p where
  bufCanonical := hbuf ▸ hf.bufCanonical
  idxInBuffer := hidx.trans hf.idxInBuffer
  written i hi := hbuf ▸ hf.written i (hi.trans_le hidx)
  inData h := by simp [hst] at h
  inChecksum h := by simp [hst] at h

theorem afterHreset_inv (p : Params) : Framer.afterHreset.Inv p where
  bufCanonical := Memory.wf_nil _
  idxInBuffer := Nat.zero_le _
  written _ hi := absurd hi (Nat.not_lt_zero _)
  inData h := nomatch h
  inChecksum h := nomatch h

theorem Framer.Inv.startFrame (hf : f.Inv p) (hl : p.legalLength b.toNat = true) : (f.startFrame b).Inv p where
  bufCanonical := hf.bufCanonical
  idxInBuffer := Nat.zero_le _
  written _ hi := absurd hi (Nat.not_lt_zero _)
  inData _ := by
    have hbyte := b.isLt
    rw [startFrame_idx, startFrame_rem, startFrame_acc, Nat.zero_add]
    exact ⟨(legalLength_iff.mp hl).1, hl, by omega, rfl⟩
  inChecksum h := nomatch h

/-- A stored byte goes from the index to the countdown, so that their sum stays (10_state.md R17 (a), (b)). -/
theorem Framer.Inv.storeByte (hf : f.Inv p) (hst : f.st = .data) (hidx : f.idx < p.bufCapacity) :
    (f.storeByte b).Inv p := by
  obtain ⟨hrem, hlegal, hbyte, hacc⟩ := hf.inData hst
  have hdec : (f.rem - 1#8).toNat = f.rem.toNat - 1 := by bv_omega
  have hsum : f.idx + 1 + (f.rem.toNat - 1) = f.idx + f.rem.toNat := by omega
  refine ⟨Memory.wf_set b hidx hf.bufCanonical, hidx, fun i hi => ?_, fun hdata => ?_, fun hck => ?_⟩
  · rw [storeByte_buf, Memory.get_set]
    split
    · rfl
    · next hne => exact hf.written i (by rw [storeByte_idx] at hi; omega)
  · have hne : f.rem - 1#8 ≠ 2#8 := fun h2 => by simp [stAfterStore_eq, h2] at hdata
    have hmore : f.rem.toNat ≠ 3 := fun h3 => hne (by bv_omega)
    rw [storeByte_idx, storeByte_rem, storeByte_acc, hdec, hsum]
    exact ⟨by omega, hlegal, hbyte, hacc⟩
  · have htwo : f.rem - 1#8 = 2#8 := by
      by_contra hne
      simp [stAfterStore_eq, hne] at hck
    have hthree : f.idx + 1 + 2 = f.idx + f.rem.toNat := by bv_omega
    rw [storeByte_idx, storeByte_rem, storeByte_acc, hthree]
    exact ⟨.inl ⟨htwo, hacc⟩, by omega, hlegal, hbyte⟩

theorem Framer.Inv.takeChecksumByte (hf : f.Inv p) (hst : f.st = .checksum) (hrem : f.rem ≠ 1#8) :
    (f.takeChecksumByte b).Inv p := by
  obtain ⟨⟨htwo, hacc⟩ | ⟨hone, -⟩, hlen⟩ := hf.inChecksum hst
  · refine ⟨hf.bufCanonical, hf.idxInBuffer, hf.written, fun h => by simp [hst] at h, fun _ => ⟨.inr ?_, hlen⟩⟩
    rw [takeChecksumByte_rem, takeChecksumByte_acc, htwo, hacc]
    exact ⟨rfl, toNat_accumulate_zero b⟩
  · exact absurd hone hrem

theorem Framer.Inv.receive (hf : f.Inv p) (payload : List Byte) : (f.receive p payload b).1.Inv p := by
  obtain ⟨-, hl, h⟩ | ⟨-, -, h⟩ | ⟨hst, hi, h⟩ | ⟨-, -, h⟩ | ⟨hst, hr, h⟩ | ⟨-, -, h⟩ :=
    receive_cases p payload f b
  all_goals rw [h]
  · exact hf.startFrame hl
  · exact hf
  · exact hf.storeByte hst hi
  · exact hf.of_reset rfl rfl le_rfl
  · exact hf.takeChecksumByte hst hr
  · exact hf.of_reset rfl rfl le_rfl

/-- Every move keeps the invariant of R17. -/
theorem Framer.Moves.inv (h : f.Moves p g) (hf : f.Inv p) : g.Inv p := by
  cases h with
  | stay => exact hf
  | receive payload b => exact hf.receive payload
  | sessionReset => exact hf.of_reset rfl rfl (Nat.zero_le _)
  | hardReset => exact afterHreset_inv p

/-- Every move keeps the buffer canonical: the only byte stored is stored below `BUF_CAPACITY` (20_memory.md R31). -/
theorem Framer.Moves.bufCanonical (h : f.Moves p g) (hf : Memory.wf p.bufCapacity f.buf = true) :
    Memory.wf p.bufCapacity g.buf = true := by
  cases h with
  | stay => exact hf
  | receive payload b =>
    obtain ⟨-, -, h⟩ | ⟨-, -, h⟩ | ⟨-, hi, h⟩ | ⟨-, -, h⟩ | ⟨-, -, h⟩ | ⟨-, -, h⟩ := receive_cases p payload f b
    case inr.inr.inl => rw [h]; exact Memory.wf_set b hi hf
    all_goals rw [h]; exact hf
  | sessionReset => exact hf
  | hardReset => exact Memory.wf_nil _

end

/-- Settles O29: each framer makes a move, and every move keeps the invariant. -/
theorem stepKeepsTheFramerInvariant : Obligations.StepKeepsTheFramerInvariant := by
  intro s t hinv h l
  obtain ⟨hparams, hmoves⟩ := step_moves h
  rw [hparams]
  exact (hmoves l).inv (hinv l)

/-- Settles O33. -/
theorem stepKeepsBuffersCanonical : Obligations.StepKeepsBuffersCanonical := by
  intro s t hwf h l
  obtain ⟨hparams, hmoves⟩ := step_moves h
  rw [hparams]
  exact (hmoves l).bufCanonical (hwf l)

/-- A performed operation keeps the invariant. -/
theorem State.Inv.after {s : State} (hinv : s.Inv) (r : Request) : (s.after r).Inv := fun l => by
  rw [after_params]
  exact (after_moves s r l).inv (hinv l)

/-- Settles O30. -/
theorem resetSatisfiesTheInvariant : Obligations.ResetSatisfiesTheInvariant := fun p l => by
  cases l <;> exact afterHreset_inv p

/-- Settles O31. -/
theorem resetValuesOfBothLinks : Obligations.ResetValuesOfBothLinks := fun p l => by
  cases l <;> exact ⟨rfl, rfl, rfl, rfl, rfl⟩

/-- Settles O32. -/
theorem hardResetEstablishesTheInvariant : Obligations.HardResetEstablishesTheInvariant := fun s =>
  ⟨s.hardReset, perform_hreset s, fun l => by rw [hardReset_link]; exact afterHreset_inv _⟩

section
variable {s t : State} {l : Link} {b : Byte}

theorem State.Inv.canReceive (hinv : s.Inv) (hd : s.hresetDone = true) : s.canReceive l :=
  canReceive_of_idx hd (hinv l).idxInBuffer

theorem State.Inv.canPerform (hinv : s.Inv) (hd : s.hresetDone = true) (r : Request) : s.canPerform r := by
  cases r with
  | rxbyte l b => exact hinv.canReceive hd
  | _ => trivial

/-- With one operation in the next instant, the step performs it once the instant is taken. -/
theorem step_of_one {r : Request} {rest : List (List Request)} (h : s.inbox = [r] :: rest) :
    step s = perform (s.takeInstant rest) r := by
  have hs : s = (s.takeInstant rest).present r := by cases s; cases h; rfl
  rw [perform, ← hs]

end

/-- Settles O19. -/
theorem nothingPresentedChangesNothing : Obligations.NothingPresentedChangesNothing := by
  refine ⟨fun s h => ?_, fun s rest h => ?_⟩
  · rw [step, h]
  · rw [step, h]; rfl

/-- Settles O21. -/
theorem invariantStatesNeverStop : Obligations.InvariantStatesNeverStop := by
  intro s hinv hd hone
  match hin : s.inbox with
  | [] => exact ⟨s, nothingPresentedChangesNothing.1 s hin⟩
  | [] :: rest => exact ⟨_, nothingPresentedChangesNothing.2 s rest hin⟩
  | [r] :: rest =>
    have hinv' : (s.takeInstant rest).Inv := fun l => by rw [takeInstant_link]; exact hinv l
    exact ⟨_, (step_of_one hin).trans (perform_of_canPerform (hinv'.canPerform hd r))⟩
  | (r :: r' :: rs) :: rest =>
    have := hone (r :: r' :: rs) (by simp [hin])
    simp at this

/-- Settles O20. -/
theorem rxbyteIsTotal : Obligations.RxbyteIsTotal := fun _ _ _ hd hidx =>
  ⟨_, _, perform_rxbyte_of_canReceive (canReceive_of_idx hd hidx), receive_ne_txRefused⟩

/-- Settles O34: an operation in the next instant is the only thing that can change these fields. -/
theorem stepKeepsParametersAndBoot : Obligations.StepKeepsParametersAndBoot := by
  intro s t h
  obtain ⟨hin, rfl⟩ | ⟨rest, hin, rfl⟩ | ⟨r, rest, hin, hperf⟩ := step_cases h
  · simp [hin]
  · simp [hin]
  · obtain ⟨-, rfl⟩ := perform_iff.mp hperf
    simp [hin, after_params, after_hresetDone, after_epoch]

/-- Settles O38: what neither belongs to the link nor is `HRESET` leaves its framer. -/
theorem framerMovesOnlyOnItsOperations : Obligations.FramerMovesOnlyOnItsOperations := by
  intro s t l h hmoved
  obtain ⟨-, rfl⟩ | ⟨rest, -, rfl⟩ | ⟨r, rest, hin, hperf⟩ := step_cases h
  · exact absurd rfl hmoved
  · exact absurd (takeInstant_link ..) hmoved
  · obtain ⟨-, rfl⟩ := perform_iff.mp hperf
    have hown : ¬ (onLink l r = false ∧ r ≠ .hreset) := fun ⟨hr, hne⟩ =>
      hmoved ((after_link_of_not_onLink hr hne).trans (takeInstant_link ..))
    refine ⟨rest, ?_⟩
    cases r with
    | rxbyte l' b =>
      obtain rfl : l' = l := by simpa [onLink] using hown
      exact .inl ⟨b, hin⟩
    | sreset l' =>
      obtain rfl : l' = l := by simpa [onLink] using hown
      exact .inr (.inl hin)
    | hreset => exact .inr (.inr hin)
    | _ => simp [onLink] at hown

/-- Settles O23. -/
theorem eachOperationYieldsItsOwnResults : Obligations.EachOperationYieldsItsOwnResults := by
  intro s t r h
  obtain ⟨-, rfl⟩ := perform_iff.mp h
  cases r with
  | rxbyte l b => exact ⟨_, received_out, receive_ne_txRefused⟩
  | sreset l => exact State.sessionReset_out s l
  | hreset => exact hardReset_out s
  | txenc q =>
    by_cases hq : framable s.params q = true
    · exact .inl ⟨_, if_pos hq, wireFrame_length ..⟩
    · exact .inr (if_neg hq)
  | crc16 xs => exact ⟨_, rfl⟩
  | crcupd c b => exact ⟨_, rfl⟩
  | verify xs c => exact ⟨_, rfl⟩

end Sys2Proof.Machine

/-!
PROOFS. What a run depends on: of a link's framer only what `Framer.Agrees` names (10_state.md R15, R23; U5, U13), and
of the operations only that link's own (20_memory.md R39). Each is a relation between two states that matching operations
keep, carried over runs by induction.
-/

namespace Sys2Proof.Machine

section
variable {p : Params} {f g : Framer} {xs ys : List Byte} {b : Byte}

theorem Framer.Agrees.of_reset (hf : f.st = .reset) (hg : g.st = .reset) : f.Agrees g where
  st := hf.trans hg.symm
  rem h := absurd hf h
  idx h := absurd hf h
  acc h := absurd hf h
  cells h := absurd hf h

theorem Framer.Agrees.refl (f : Framer) : f.Agrees f :=
  ⟨rfl, fun _ => rfl, fun _ => rfl, fun _ => rfl, fun _ _ _ => rfl⟩

theorem Framer.Agrees.startFrame : (f.startFrame b).Agrees (g.startFrame b) :=
  ⟨rfl, fun _ => rfl, fun _ => rfl, fun _ => rfl, fun _ _ hi => absurd hi (Nat.not_lt_zero _)⟩

theorem Framer.Agrees.storeByte (h : f.Agrees g) (hst : f.st ≠ .reset) : (f.storeByte b).Agrees (g.storeByte b) := by
  have hrem := h.rem hst
  have hidx := h.idx hst
  refine ⟨by simp [hrem], fun _ => by simp [hrem], fun _ => by simp [hidx], fun _ => h.acc hst, fun _ i hi => ?_⟩
  rw [storeByte_buf, storeByte_buf, Memory.get_set, Memory.get_set, hidx]
  split
  · rfl
  · next hne => exact h.cells hst i (by rw [storeByte_idx] at hi; omega)

theorem Framer.Agrees.takeChecksumByte (h : f.Agrees g) (hst : f.st ≠ .reset) :
    (f.takeChecksumByte b).Agrees (g.takeChecksumByte b) :=
  ⟨h.st, fun _ => by simp [h.rem hst], fun _ => h.idx hst, fun _ => by simp [h.acc hst], fun _ => h.cells hst⟩

/-- Framers that agree, and outside `Reset` have collected the same payload, take a byte alike: the same event, and they
agree again. -/
theorem Framer.Agrees.receive (h : f.Agrees g) (hpay : f.st ≠ .reset → xs = ys) :
    (f.receive p xs b).1.Agrees (g.receive p ys b).1 ∧ (f.receive p xs b).2 = (g.receive p ys b).2 := by
  have hst' := h.st
  obtain ⟨hst, hl, hf⟩ | ⟨hst, hl, hf⟩ | ⟨hst, hi, hf⟩ | ⟨hst, hi, hf⟩ | ⟨hst, hr, hf⟩ | ⟨hst, hr, hf⟩ :=
    receive_cases p xs f b
  all_goals rw [hst] at hst'
  · rw [hf, receive_of_legal hst'.symm hl]
    exact ⟨.startFrame, rfl⟩
  · rw [hf, receive_of_illegal hst'.symm hl]
    exact ⟨h, rfl⟩
  all_goals
    have hout : f.st ≠ .reset := by simp [hst]
    have hidx := h.idx hout
    have hrem := h.rem hout
  · rw [hf, receive_of_room hst'.symm (hidx ▸ hi)]
    exact ⟨h.storeByte hout, rfl⟩
  · rw [hf, receive_of_full hst'.symm (hidx ▸ hi)]
    exact ⟨.of_reset rfl rfl, rfl⟩
  · rw [hf, receive_of_more hst'.symm (hrem ▸ hr)]
    exact ⟨h.takeChecksumByte hout, rfl⟩
  · rw [hf, receive_of_last hst'.symm (hrem ▸ hr), hpay hout, h.acc hout]
    exact ⟨.of_reset rfl rfl, rfl⟩

end

section
variable {s u t : State} {l : Link} {r : Request} {xs : List Result}

/-- The cells below the index have been written, so that no free byte is collected (10_state.md R15). -/
theorem State.Agrees.collected (h : s.Agrees u) (hinv : s.Inv) (hst : (s.link l).st ≠ .reset) :
    s.collected l = u.collected l := by
  have hlink := h.links l
  rw [State.collected, State.collected, ← hlink.idx hst]
  refine List.map_congr_left fun i hi => ?_
  have hlt := List.mem_range.mp hi
  obtain ⟨v, hv⟩ := Option.isSome_iff_exists.mp ((hinv l).written i hlt)
  rw [cell_def, cell_def, ← hlink.cells hst i hlt, hv]
  rfl

theorem State.Agrees.withOut (h : s.Agrees u) (x y : Result) : (s.withOut x).Agrees (u.withOut y) :=
  ⟨h.params, h.hresetDone, fun l => by simpa using h.links l⟩

/-- Agreement after one link's framer was replaced on both sides. -/
theorem State.Agrees.setLink {f g : Framer} (h : s.Agrees u) (hfg : f.Agrees g) :
    (s.setLink l f).Agrees (u.setLink l g) := by
  refine ⟨by simpa using h.params, by simpa using h.hresetDone, fun l' => ?_⟩
  by_cases hl : l' = l
  · subst hl; simpa using hfg
  · simpa [setLink_of_ne _ _ _ _ hl] using h.links l'

theorem State.Agrees.canPerform (h : s.Agrees u) (hcan : s.canPerform r) : u.canPerform r := by
  cases r with
  | rxbyte l b =>
    obtain ⟨hd, hrange⟩ := hcan
    have hlink := h.links l
    refine ⟨h.hresetDone ▸ hd, fun hst hrem => ?_⟩
    have hck := hlink.st.trans hst
    have hout : (s.link l).st ≠ .reset := by simp [hck]
    rw [← hlink.idx hout, ← h.params]
    exact hrange hck ((hlink.rem hout).trans hrem)
  | _ => trivial

/-- States that agree perform an operation alike. -/
theorem State.Agrees.after (h : s.Agrees u) (hinv : s.Inv) (r : Request) :
    (s.after r).Agrees (u.after r) ∧ (s.after r).out = (u.after r).out := by
  cases r with
  | rxbyte l b =>
    obtain ⟨hframer, hevent⟩ :=
      (h.links l).receive (p := s.params) (b := b) (fun hst => h.collected hinv hst)
    simp only [State.after, State.received, withOut_out, ← h.params, hevent]
    exact ⟨(h.setLink hframer).withOut .., trivial⟩
  | sreset l => exact ⟨(h.setLink (.of_reset rfl rfl)).withOut .., rfl⟩
  | hreset => exact ⟨⟨h.params, rfl, fun l => by simpa [State.after] using Framer.Agrees.refl _⟩, rfl⟩
  | _ =>
    simp only [State.after, withOut_out, h.params]
    exact ⟨h.withOut .., trivial⟩

/-- Settles O40: agreement, with the invariant, is kept by every operation. -/
theorem unspecifiedBytesNeverReachAnEvent : Obligations.UnspecifiedBytesNeverReachAnEvent := by
  intro rs
  induction rs with
  | nil =>
    rintro s u t xs - hagree ⟨⟩
    exact ⟨u, rfl, hagree⟩
  | cons r rs ih =>
    intro s u t xs hinv hagree hrun
    obtain ⟨s', ys, hperf, hrest, rfl⟩ := (performs_cons s r rs).mp hrun
    obtain ⟨hcan, rfl⟩ := perform_iff.mp hperf
    obtain ⟨hagree', hout⟩ := hagree.after hinv r
    obtain ⟨v, hv, htv⟩ := ih _ _ t ys (hinv.after r) hagree' hrest
    exact ⟨v, (performs_cons u r rs).mpr ⟨_, ys, perform_of_canPerform (hagree.canPerform hcan), hv, by rw [hout]⟩, htv⟩

/-- Two states that are the same for link `l`: everything the operations of that link read. -/
structure State.SameFor (l : Link) (s u : State) : Prop where
  params : s.params = u.params
  hresetDone : s.hresetDone = u.hresetDone
  epoch : s.epoch = u.epoch
  link : s.link l = u.link l

theorem State.SameFor.refl (l : Link) (s : State) : s.SameFor l s := ⟨rfl, rfl, rfl, rfl⟩

theorem State.SameFor.trans (h : s.SameFor l u) (h' : u.SameFor l t) : s.SameFor l t :=
  ⟨h.params.trans h'.params, h.hresetDone.trans h'.hresetDone, h.epoch.trans h'.epoch, h.link.trans h'.link⟩

theorem State.SameFor.collected (h : s.SameFor l u) : s.collected l = u.collected l := by
  have hcell : s.cell l = u.cell l := funext fun i => by rw [cell_def, cell_def, h.link, h.epoch]
  rw [State.collected, State.collected, hcell, h.link]

theorem State.SameFor.withOut_setLink (h : s.SameFor l u) (f : Framer) (x : Result) :
    ((s.setLink l f).withOut x).SameFor l ((u.setLink l f).withOut x) where
  params := by simpa using h.params
  hresetDone := by simpa using h.hresetDone
  epoch := by simpa using h.epoch
  link := by simp

theorem State.SameFor.canPerform (h : s.SameFor l u) (hr : onLink l r = true) (hcan : s.canPerform r) :
    u.canPerform r := by
  cases r with
  | rxbyte l' b =>
    obtain rfl : l' = l := of_decide_eq_true hr
    simpa only [State.canPerform, State.canReceive, h.params, h.hresetDone, h.link] using hcan
  | _ => trivial

/-- An operation of link `l` does the same in both, and its result is one of that link. -/
theorem State.SameFor.after (h : s.SameFor l u) (hr : onLink l r = true) :
    (s.after r).SameFor l (u.after r) ∧ (s.after r).out = (u.after r).out ∧ (s.after r).out.isOfLink l = true := by
  cases r with
  | rxbyte l' b =>
    obtain rfl : l' = l := of_decide_eq_true hr
    simp only [State.after, State.received, h.params, h.link, h.collected]
    exact ⟨h.withOut_setLink .., rfl, decide_eq_true rfl⟩
  | sreset l' =>
    obtain rfl : l' = l := of_decide_eq_true hr
    simp only [State.after, State.sessionReset, h.link]
    exact ⟨h.withOut_setLink .., rfl, decide_eq_true rfl⟩
  | _ => simp [onLink] at hr

/-- Any other operation but `HRESET` changes nothing for link `l`, and its result is none of that link. -/
theorem after_sameFor_of_not_onLink (hr : onLink l r = false) (hne : r ≠ .hreset) :
    (s.after r).SameFor l s ∧ (s.after r).out.isOfLink l = false := by
  refine ⟨⟨after_params, by simp [after_hresetDone, hne], by simp [after_epoch, hne],
    after_link_of_not_onLink hr hne⟩, ?_⟩
  cases r with
  | hreset => exact absurd rfl hne
  | txenc q =>
    simp only [State.after, withOut_out, txencResult]
    split <;> simp [Result.isOfLink]
  | rxbyte l' b => simpa [State.after, Result.isOfLink, onLink] using hr
  | sreset l' => simpa [State.after, Result.isOfLink, onLink] using hr
  | _ => rfl

/-- A run, and the operations of link `l` alone from a state that is the same for that link. -/
theorem performs_filter_onLink {rs : List Request} (hne : .hreset ∉ rs) (hrun : performs s rs = some (xs, t))
    (hsame : s.SameFor l u) :
    ∃ v, performs u (rs.filter (onLink l)) = some (xs.filter (Result.isOfLink l), v) ∧ t.SameFor l v := by
  induction rs generalizing s u xs with
  | nil => cases hrun; exact ⟨u, rfl, hsame⟩
  | cons r rs ih =>
    obtain ⟨s', ys, hperf, hrest, rfl⟩ := (performs_cons s r rs).mp hrun
    obtain ⟨hcan, rfl⟩ := perform_iff.mp hperf
    obtain ⟨hr_ne, hrs_ne⟩ : r ≠ .hreset ∧ .hreset ∉ rs := by
      simpa [eq_comm] using hne
    by_cases hr : onLink l r = true
    · obtain ⟨hsame', hout, hown⟩ := hsame.after hr
      obtain ⟨v, hv, htv⟩ := ih hrs_ne hrest hsame'
      rw [List.filter_cons_of_pos hr, List.filter_cons_of_pos hown, hout]
      exact ⟨v, (performs_cons u r _).mpr
        ⟨_, _, perform_of_canPerform (hsame.canPerform hr hcan), hv, rfl⟩, htv⟩
    · obtain ⟨hsame', hother⟩ := after_sameFor_of_not_onLink (Bool.eq_false_iff.mpr hr) hr_ne (s := s)
      rw [List.filter_cons_of_neg hr, List.filter_cons_of_neg (Bool.not_eq_true _ ▸ hother)]
      exact ih hrs_ne hrest (hsame'.trans hsame)

/-- Settles O41. -/
theorem interleavingsProjectToEachLink : Obligations.InterleavingsProjectToEachLink := by
  intro rs s t xs l hne hrun
  obtain ⟨v, hv, hsame⟩ := performs_filter_onLink hne hrun (.refl l s)
  exact ⟨_, v, hv, rfl, hsame.link.symm⟩

end

end Sys2Proof.Machine

/-!
PROOFS. The framer over lists, for any checksum function (41_integrity_codec.md R90): the events of a wire frame, where
it fits, where its payload exceeds the buffer, and where its length is illegal. No register and no buffer occurs here.
-/

namespace Sys2Proof.Machine

section
variable {p : Params} {ck : List Byte → U16}

theorem feed_cons (a : AFramer) (b : Byte) (bs : List Byte) :
    AFramer.feed p ck a (b :: bs) =
      ((a.step p ck b).2 :: (AFramer.feed p ck (a.step p ck b).1 bs).1,
        (AFramer.feed p ck (a.step p ck b).1 bs).2) := rfl

theorem feed_append (a : AFramer) (bs cs : List Byte) :
    AFramer.feed p ck a (bs ++ cs) =
      ((AFramer.feed p ck a bs).1 ++ (AFramer.feed p ck (AFramer.feed p ck a bs).2 cs).1,
        (AFramer.feed p ck (AFramer.feed p ck a bs).2 cs).2) := by
  induction bs generalizing a with
  | nil => rfl
  | cons b bs ih => simp only [List.cons_append, feed_cons, ih]

/-- The framer over lists when it has got the payload bytes `got` and `rem` bytes of the frame are to come, two of them
the checksum. -/
def AFramer.collecting (rem : Nat) (got : List Byte) : AFramer :=
  if rem = 2 then .checksum got none else .payload rem got

theorem collecting_two (got : List Byte) : AFramer.collecting 2 got = .checksum got none := if_pos rfl

theorem collecting_of_ne {rem : Nat} (h : rem ≠ 2) (got : List Byte) :
    AFramer.collecting rem got = .payload rem got := if_neg h

/-- A payload byte with room in the buffer is got. -/
theorem step_collecting {rem : Nat} {got : List Byte} (b : Byte) (hrem : 3 ≤ rem) (hroom : got.length < p.bufCapacity) :
    (AFramer.collecting rem got).step p ck b = (.collecting (rem - 1) (got ++ [b]), .none) := by
  rw [collecting_of_ne (by omega), AFramer.step, if_neg (Nat.not_le.mpr hroom)]
  by_cases hthree : rem = 3
  · rw [if_pos hthree, hthree]; rfl
  · rw [if_neg hthree, collecting_of_ne (by omega)]

/-- A payload byte that finds the buffer full overflows. -/
theorem step_collecting_full {rem : Nat} {got : List Byte} (b : Byte) (hrem : 3 ≤ rem)
    (hfull : p.bufCapacity ≤ got.length) : (AFramer.collecting rem got).step p ck b = (.idle, .overflow) := by
  rw [collecting_of_ne (by omega), AFramer.step, if_pos hfull]

/-- Payload bytes that the countdown and the buffer admit are got, without an event. -/
theorem feed_collecting {rem : Nat} {got bs : List Byte} (hrem : bs.length + 2 ≤ rem)
    (hroom : got.length + bs.length ≤ p.bufCapacity) :
    AFramer.feed p ck (.collecting rem got) bs =
      (List.replicate bs.length .none, .collecting (rem - bs.length) (got ++ bs)) := by
  induction bs generalizing rem got with
  | nil => simp [AFramer.feed]
  | cons b bs ih =>
    rw [List.length_cons] at hrem hroom
    have hleft : rem - 1 - bs.length = rem - (bs.length + 1) := by omega
    rw [feed_cons, step_collecting b (by omega) (by omega), ih (by omega) (by simp; omega), hleft, List.append_assoc]
    rfl

/-- A legal length byte starts the frame. -/
theorem step_idle_of_legal {n : Byte} (h : p.legalLength n.toNat = true) :
    AFramer.idle.step p ck n = (.collecting n.toNat [], .none) := by
  have hmin := (legalLength_iff.mp h).1
  rw [AFramer.step, if_pos h, collecting_of_ne (by omega)]

theorem step_idle_of_illegal {n : Byte} (h : p.legalLength n.toNat = false) :
    AFramer.idle.step p ck n = (.idle, .lenReject) := by
  rw [AFramer.step, if_neg (Bool.eq_false_iff.mp h)]

end

/-- The two checksum bytes, high and low, are the checksum (30_encoding.md R51). -/
theorem high_append_low (c : U16) : (c >>> 8).setWidth 8 ++ c.setWidth 8 = c := by
  ext i hi
  rw [BitVec.getElem_append]
  split
  · simp [BitVec.getLsbD_eq_getElem hi]
  · next hlow => simp [show 8 + (i - 8) = i by omega, BitVec.getLsbD_eq_getElem hi]

section
variable {p : Params} {ck : List Byte → U16} {q : List Byte} {c : U16}

/-- The length byte of a frame that a device can send holds the number (30_encoding.md R50). -/
theorem toNat_lengthByte (hlen : q.length + 2 < 256) : (BitVec.ofNat 8 (q.length + 2)).toNat = q.length + 2 :=
  (BitVec.toNat_ofNat ..).trans (Nat.mod_eq_of_lt hlen)

/-- The first bytes of a frame's payload, after a legal length byte, go by without an event while the buffer holds
them. -/
theorem feed_lengthByte_payload {bs : List Byte} (hlen : q.length + 2 < 256)
    (hlegal : p.legalLength (q.length + 2) = true) (hbs : bs.length ≤ q.length) (hroom : bs.length ≤ p.bufCapacity) :
    AFramer.feed p ck .idle (BitVec.ofNat 8 (q.length + 2) :: bs) =
      (List.replicate (bs.length + 1) .none, .collecting (q.length + 2 - bs.length) bs) := by
  rw [feed_cons, step_idle_of_legal (by rwa [toNat_lengthByte hlen]), toNat_lengthByte hlen,
    feed_collecting (by omega) (by simpa using hroom)]
  simp [List.replicate_succ]

/-- A whole frame whose payload the buffer holds ends on its last byte, as the comparison of the checksums decides. -/
theorem feed_wireFrame (hlen : q.length + 2 < 256) (hlegal : p.legalLength (q.length + 2) = true)
    (hroom : q.length ≤ p.bufCapacity) :
    AFramer.feed p ck .idle (wireFrame q c) =
      (List.replicate (q.length + 2) .none ++ [if ck q = c then .frameOk q else .frameBad], .idle) := by
  have hsplit : wireFrame q c =
      (BitVec.ofNat 8 (q.length + 2) :: q) ++ [(c >>> 8).setWidth 8, c.setWidth 8] := rfl
  rw [hsplit, feed_append, feed_lengthByte_payload hlen hlegal le_rfl hroom, Nat.add_sub_cancel_left, collecting_two]
  simp only [AFramer.feed, AFramer.step, high_append_low]
  rw [List.replicate_succ' (n := q.length + 1), List.append_assoc]
  rfl

/-- A frame whose payload exceeds the buffer overflows on payload byte `BUF_CAPACITY + 1`. -/
theorem feed_wireFrame_overflow (hlen : q.length + 2 < 256) (hlegal : p.legalLength (q.length + 2) = true)
    (hfull : p.bufCapacity < q.length) :
    AFramer.feed p ck .idle ((wireFrame q c).take (p.bufCapacity + 2)) =
      (List.replicate (p.bufCapacity + 1) .none ++ [.overflow], .idle) := by
  have hsplit : (wireFrame q c).take (p.bufCapacity + 2) =
      (BitVec.ofNat 8 (q.length + 2) :: q.take p.bufCapacity) ++ [q[p.bufCapacity]] := by
    rw [wireFrame, List.take_succ_cons, List.take_append_of_le_length hfull, List.take_succ_eq_append_getElem hfull]
    rfl
  have htake : (q.take p.bufCapacity).length = p.bufCapacity := List.length_take_of_le hfull.le
  rw [hsplit, feed_append, feed_lengthByte_payload hlen hlegal (by omega) htake.le, htake, feed_cons,
    step_collecting_full _ (by omega) htake.ge]
  rfl

/-- A frame whose length is illegal is rejected on its first byte. -/
theorem feed_wireFrame_illegal (hlen : q.length + 2 < 256) (hillegal : p.legalLength (q.length + 2) = false) :
    AFramer.feed p ck .idle ((wireFrame q c).take 1) = ([.lenReject], .idle) := by
  rw [wireFrame, List.take_succ_cons, List.take_zero, feed_cons,
    step_idle_of_illegal (by rwa [toNat_lengthByte hlen])]
  rfl

end

/-- Settles O45: with the checksum of the payload itself in the frame, the comparison delivers it. -/
theorem roundTripForEveryChecksum : Obligations.RoundTripForEveryChecksum := by
  intro p ck q hwf hmin hmax hroom
  obtain ⟨hleast, hmost⟩ := Params.maxPacketSize_of_wf hwf
  rw [feed_wireFrame (by omega) (legalLength_iff.mpr (by omega)) hroom, if_pos rfl]

end Sys2Proof.Machine

/-!
PROOFS. The register machine refines the framer over lists, byte by byte and over runs, and what that gives: the round
trip of a device's own frames (42_tx_encoder.md R112) and the fate of another device's (70_reset_and_hazards.md R160).
-/

namespace Sys2Proof.Machine

/-- What the refinement asks of a framer's registers: less than the invariant, and met in `Reset` by whatever the dead
registers and the buffer hold. -/
structure Framer.Coherent (p : Params) (f : Framer) : Prop where
  inData : f.st = .data → 3 ≤ f.rem.toNat ∧ f.acc = 0
  inChecksum : f.st = .checksum →
    (f.rem = 2#8 ∧ f.acc = 0 ∨ f.rem = 1#8 ∧ ∃ hi : Byte, f.acc = hi.setWidth 16) ∧ f.idx ≤ p.bufCapacity

/-- An accumulator below 256 is its low byte (10_state.md R17 (b)). -/
theorem eq_setWidth_of_lt {c : U16} (h : c.toNat < 256) : c = (c.setWidth 8).setWidth 16 := by
  apply BitVec.eq_of_toNat_eq
  rw [BitVec.toNat_setWidth, BitVec.toNat_setWidth, Nat.mod_eq_of_lt h, Nat.mod_eq_of_lt (h.trans (by decide))]

/-- The two checksum bytes received are the accumulator, high byte first (30_encoding.md R54). -/
theorem accumulate_setWidth (hi lo : Byte) : accumulate (hi.setWidth 16) lo = hi ++ lo := by
  have hhigh : (accumulate (hi.setWidth 16) lo >>> 8).setWidth 8 = hi := accumulate_high hi lo
  have hlow : (accumulate (hi.setWidth 16) lo).setWidth 8 = lo :=
    (BitVec.setWidth_eq_extractLsb' (by decide)).trans (accumulate_low hi lo)
  calc accumulate (hi.setWidth 16) lo
      = (accumulate (hi.setWidth 16) lo >>> 8).setWidth 8 ++ (accumulate (hi.setWidth 16) lo).setWidth 8 :=
        (high_append_low _).symm
    _ = hi ++ lo := by rw [hhigh, hlow]

section
variable {p : Params} {f : Framer} {b : Byte} {payload : List Byte}

theorem Framer.Coherent.of_reset (h : f.st = .reset) : f.Coherent p :=
  ⟨fun h' => by simp [h] at h', fun h' => by simp [h] at h'⟩

theorem Framer.Inv.coherent (h : f.Inv p) : f.Coherent p where
  inData hst := by
    obtain ⟨hrem, -, -, hacc⟩ := h.inData hst
    exact ⟨hrem, hacc⟩
  inChecksum hst := by
    obtain ⟨hreg, -⟩ := h.inChecksum hst
    exact ⟨hreg.imp_right fun ⟨hrem, hacc⟩ => ⟨hrem, _, eq_setWidth_of_lt hacc⟩, h.idxInBuffer⟩

theorem Framer.Coherent.storeByte (h : f.Coherent p) (hst : f.st = .data) (hidx : f.idx < p.bufCapacity) :
    (f.storeByte b).Coherent p := by
  obtain ⟨hrem, hacc⟩ := h.inData hst
  refine ⟨fun hdata => ⟨?_, hacc⟩, fun hck => ⟨.inl ⟨?_, hacc⟩, hidx⟩⟩
  · have hne : f.rem - 1#8 ≠ 2#8 := fun htwo => by simp [stAfterStore_eq, htwo] at hdata
    rw [storeByte_rem]
    bv_omega
  · by_contra hne
    simp only [storeByte_rem] at hne
    simp [stAfterStore_eq, hne] at hck

theorem Framer.Coherent.takeChecksumByte (h : f.Coherent p) (hst : f.st = .checksum) (hrem : f.rem ≠ 1#8) :
    (f.takeChecksumByte b).Coherent p := by
  obtain ⟨⟨htwo, hacc⟩ | ⟨hone, -⟩, hidx⟩ := h.inChecksum hst
  · refine ⟨fun hdata => by simp [hst] at hdata, fun _ => ⟨.inr ⟨by simp [htwo], b, ?_⟩, hidx⟩⟩
    rw [takeChecksumByte_acc, hacc]
    exact accumulate_zero b
  · exact absurd hone hrem

theorem Framer.Coherent.receive (h : f.Coherent p) : (f.receive p payload b).1.Coherent p := by
  obtain ⟨-, hl, hf⟩ | ⟨-, -, hf⟩ | ⟨hst, hi, hf⟩ | ⟨-, -, hf⟩ | ⟨hst, hr, hf⟩ | ⟨-, -, hf⟩ :=
    receive_cases p payload f b
  all_goals rw [hf]
  · exact ⟨fun _ => ⟨(legalLength_iff.mp hl).1, rfl⟩, nofun⟩
  · exact h
  · exact h.storeByte hst hi
  · exact .of_reset rfl
  · exact h.takeChecksumByte hst hr
  · exact .of_reset rfl

end

section
variable {s t : State} {l : Link} {b : Byte} {bs : List Byte}

theorem Framer.Coherent.canReceive (h : (s.link l).Coherent s.params) (hd : s.hresetDone = true) : s.canReceive l :=
  ⟨hd, fun hst _ => (h.inChecksum hst).2⟩

theorem abstractLink_of_reset (hst : (s.link l).st = .reset) : s.abstractLink l = .idle := by
  simp [State.abstractLink, hst]

theorem abstractLink_of_data (hst : (s.link l).st = .data) (hrem : 3 ≤ (s.link l).rem.toNat) :
    s.abstractLink l = .collecting (s.link l).rem.toNat (s.collected l) := by
  rw [collecting_of_ne (by omega)]
  simp [State.abstractLink, State.collected, hst]

theorem abstractLink_of_checksum (hst : (s.link l).st = .checksum) (hrem : (s.link l).rem = 2#8) :
    s.abstractLink l = .collecting 2 (s.collected l) := by
  simp [State.abstractLink, State.collected, collecting_two, hst, hrem]

theorem abstractLink_of_lastByte {hi : Byte} (hst : (s.link l).st = .checksum) (hrem : (s.link l).rem = 1#8)
    (hacc : (s.link l).acc = hi.setWidth 16) : s.abstractLink l = .checksum (s.collected l) (some hi) := by
  simp [State.abstractLink, State.collected, hst, hrem, hacc]

theorem abstractLink_eq_idle : s.abstractLink l = .idle ↔ (s.link l).st = .reset := by
  unfold State.abstractLink
  cases (s.link l).st <;> simp

/-- A framer's abstraction reads nothing of the other link. -/
theorem abstractLink_received_of_ne {l' : Link} (h : l' ≠ l) :
    (s.received l b).abstractLink l' = s.abstractLink l' := by
  have hcell : (s.received l b).cell l' = s.cell l' := funext fun i => by
    rw [cell_def, cell_def, received_link_of_ne h, received_epoch]
  simp only [State.abstractLink, received_link_of_ne h, hcell]

/-- The state of a link after it received a byte, by what the framer makes of it. -/
theorem received_eq {f : Framer} {e : Event} (h : (s.link l).receive s.params (s.collected l) b = (f, e)) :
    s.received l b = (s.setLink l f).withOut (.event (some l) e) := by rw [State.received, h]

/-- A stored byte is a byte got. -/
theorem abstractLink_storeByte (x : Result) (hrem : 3 ≤ (s.link l).rem.toNat) :
    ((s.setLink l ((s.link l).storeByte b)).withOut x).abstractLink l =
      .collecting ((s.link l).rem.toNat - 1) (s.collected l ++ [b]) := by
  have hdec : ((s.link l).rem - 1#8).toNat = (s.link l).rem.toNat - 1 := by bv_omega
  by_cases htwo : (s.link l).rem - 1#8 = 2#8
  · rw [abstractLink_of_checksum (by simp [stAfterStore_eq, htwo]) (by simp [htwo]), collected_withOut,
      collected_storeByte, ← hdec, htwo]
    rfl
  · have hmore : (s.link l).rem.toNat ≠ 3 := fun h3 => htwo (by bv_omega)
    rw [abstractLink_of_data (by simp [stAfterStore_eq, htwo]) (by simp [hdec]; omega), collected_withOut,
      collected_storeByte]
    simp [hdec]

/-- One byte on the registers is one byte on the framer over lists, with the same event. -/
theorem received_refines (hc : (s.link l).Coherent s.params) (b : Byte) :
    (s.abstractLink l).step s.params (crc16Of s.params.crc) b =
      ((s.received l b).abstractLink l, ((s.link l).receive s.params (s.collected l) b).2) := by
  obtain ⟨hst, hl, hf⟩ | ⟨hst, hl, hf⟩ | ⟨hst, hi, hf⟩ | ⟨hst, hi, hf⟩ | ⟨hst, hr, hf⟩ | ⟨hst, hr, hf⟩ :=
    receive_cases s.params (s.collected l) (s.link l) b
  all_goals rw [received_eq hf, hf]
  · have hgot := collected_of_idx_zero
      (s := (s.setLink l ((s.link l).startFrame b)).withOut (.event (some l) .none)) (l := l) (by simp)
    rw [abstractLink_of_reset hst, step_idle_of_legal hl,
      abstractLink_of_data (by simp) (by simpa using (legalLength_iff.mp hl).1), hgot]
    simp
  · rw [abstractLink_of_reset hst, step_idle_of_illegal hl, abstractLink_of_reset (by simpa using hst)]
  · obtain ⟨hrem, -⟩ := hc.inData hst
    rw [abstractLink_of_data hst hrem, step_collecting b hrem (by simpa using hi), abstractLink_storeByte _ hrem]
  · obtain ⟨hrem, -⟩ := hc.inData hst
    rw [abstractLink_of_data hst hrem, step_collecting_full b hrem (by simpa using hi),
      abstractLink_of_reset (by simp)]
  · obtain ⟨⟨htwo, hacc⟩ | ⟨hone, -⟩, -⟩ := hc.inChecksum hst
    · rw [abstractLink_of_checksum hst htwo, collecting_two,
        abstractLink_of_lastByte (hi := b) (by simpa using hst) (by simp [htwo])
          (by simpa [hacc] using accumulate_zero b),
        collected_withOut, collected_setLink (takeChecksumByte_buf ..) (takeChecksumByte_idx ..)]
      rfl
    · exact absurd hone hr
  · obtain ⟨⟨htwo, -⟩ | ⟨-, hi, hacc⟩, -⟩ := hc.inChecksum hst
    · simp [htwo] at hr
    · rw [abstractLink_of_lastByte hst hr hacc, abstractLink_of_reset (by simp), hacc, accumulate_setWidth]
      rfl

/-- Settles O44. -/
theorem receiverRefinesTheListFramer : Obligations.ReceiverRefinesTheListFramer := by
  intro s l b hinv hd
  have hstep := received_refines (hinv l).coherent b
  refine ⟨_, perform_rxbyte_of_canReceive (hinv.canReceive hd), ?_, ?_, ?_⟩
  · rw [hstep]
  · rw [hstep, received_out]
  · exact abstractLink_received_of_ne (Link.other_ne l)

/-- What bytes received on a link leave alone: the other link, the parameters, the boot. -/
structure State.KeptBeside (s : State) (l : Link) (t : State) : Prop where
  other : t.link l.other = s.link l.other
  params : t.params = s.params
  hresetDone : t.hresetDone = s.hresetDone

/-- A run of bytes on a link is a run of the framer over lists, with the same events. -/
theorem performs_rxBytes_refines (hd : s.hresetDone = true) (hc : (s.link l).Coherent s.params) (bs : List Byte) :
    ∃ t, performs s (rxBytes l bs) =
        some ((AFramer.feed s.params (crc16Of s.params.crc) (s.abstractLink l) bs).1.map (Result.ofLink l), t) ∧
      t.abstractLink l = (AFramer.feed s.params (crc16Of s.params.crc) (s.abstractLink l) bs).2 ∧
      s.KeptBeside l t := by
  induction bs generalizing s with
  | nil => exact ⟨s, rfl, rfl, rfl, rfl, rfl⟩
  | cons b bs ih =>
    have hc' : ((s.received l b).link l).Coherent (s.received l b).params := by
      rw [received_link, received_params]; exact hc.receive
    obtain ⟨t, hrun, habs, hother, hparams, hdone⟩ := ih (received_hresetDone.trans hd) hc'
    rw [received_params] at hrun habs
    rw [feed_cons, received_refines hc]
    refine ⟨t, (performs_cons ..).mpr ⟨_, _, perform_rxbyte_of_canReceive (hc.canReceive hd), hrun, rfl⟩, habs, ?_⟩
    exact ⟨hother.trans (received_link_of_ne (Link.other_ne l)), hparams.trans received_params,
      hdone.trans received_hresetDone⟩

/-- The same from a link in `Reset`, for bytes that end in `Reset` there. -/
theorem performs_rxBytes_of_feed {es : List Event} (hd : s.hresetDone = true) (hst : (s.link l).st = .reset)
    (h : AFramer.feed s.params (crc16Of s.params.crc) .idle bs = (es, .idle)) :
    ∃ t, performs s (rxBytes l bs) = some (es.map (Result.ofLink l), t) ∧ (t.link l).st = .reset ∧
      s.KeptBeside l t := by
  obtain ⟨t, hrun, habs, hkept⟩ := performs_rxBytes_refines hd (.of_reset hst) bs
  rw [abstractLink_of_reset hst, h] at hrun habs
  exact ⟨t, hrun, abstractLink_eq_idle.mp habs, hkept⟩

/-- The last result of bytes received on a link is what the last byte yields. -/
theorem performs_rxBytes_last {xs : List Result} {x : Result}
    (h : performs s (rxBytes l bs) = some (xs ++ [x], t)) : ∃ u b, perform u (.rxbyte l b) = .next t ∧ t.out = x := by
  cases bs using List.reverseRecOn with
  | nil => simp [rxBytes, performs_nil] at h
  | append_singleton bs b =>
    obtain ⟨u, ys, -, hb, hlast⟩ := performs_rxBytes_concat.mp h
    exact ⟨u, b, hb, (List.singleton_inj.mp (List.append_inj_right' hlast rfl)).symm⟩

theorem perform_txenc_of_framable {q : List Byte} (h : framable s.params q = true) :
    perform s (.txenc q) = .next (s.withOut (.frame (wireFrame q (crc16Of s.params.crc q)))) := by
  rw [perform_txenc, txencResult, if_pos h]

/-- What a delivery leaves: an idle framer, whose registers and buffer are those of the delivered payload
(40_rx_framer.md R76, 60_exceptions.md R138). -/
theorem delivery_leaves {q : List Byte} (h : perform s (.rxbyte l b) = .next t)
    (hout : t.out = Result.ofLink l (.frameOk q)) :
    (t.link l).st = .reset ∧ (t.link l).rem = 0#8 ∧ (t.link l).idx = q.length ∧
      (t.link l).acc = crc16Of s.params.crc q ∧ t.bufSlice l q.length = some q := by
  obtain ⟨hst, hrem, rfl, hcrc⟩ := delivery_verified h hout
  have hone : (s.link l).rem = 1#8 := by bv_omega
  obtain ⟨⟨-, hrange⟩, rfl⟩ := perform_rxbyte_iff.mp h
  rw [received_eq (receive_of_last hst hone), collected_length, hcrc]
  refine ⟨by simp, by simp [hone], by simp, by simp, ?_⟩
  rw [bufSlice_eq_some, withOut_params, setLink_params]
  refine ⟨hrange hst hone, List.map_congr_left fun i _ => ?_⟩
  rw [withOut_cell, cell_setLink_of_buf _ _ _ _ _ (by simp)]

/-- Settles O42. -/
theorem encodedFrameIsDelivered : Obligations.EncodedFrameIsDelivered := by
  intro q l s hwf hd hst hmin hmax
  obtain ⟨hleast, hmost⟩ := Params.maxPacketSize_of_wf hwf
  have hlegal : s.params.legalLength (q.length + 2) = true := legalLength_iff.mpr (by omega)
  refine ⟨_, perform_txenc_of_framable (framable_iff.mpr (by omega)), fun hfits => ?_, fun hfull => ?_⟩
  · have hfeed := feed_wireFrame (c := crc16Of s.params.crc q) (ck := crc16Of s.params.crc) (by omega) hlegal hfits
    rw [if_pos rfl] at hfeed
    obtain ⟨t, hrun, -, hkept⟩ := performs_rxBytes_of_feed hd hst hfeed
    rw [List.map_append, List.map_replicate] at hrun
    obtain ⟨u, b, hperf, hout⟩ := performs_rxBytes_last hrun
    obtain ⟨hreset, hrem, hidx, hacc, hslice⟩ := delivery_leaves hperf hout
    have hparams : u.params = s.params := (rxbyte_keeps_params hperf).symm.trans hkept.params
    exact ⟨t, hrun, hreset, hidx, hparams ▸ hacc, hrem, hslice⟩
  · obtain ⟨t, hrun, hreset, -⟩ :=
      performs_rxBytes_of_feed hd hst (feed_wireFrame_overflow (c := crc16Of s.params.crc q) (by omega) hlegal hfull)
    rw [List.map_append, List.map_replicate] at hrun
    exact ⟨t, hrun, hreset⟩

/-- In `Reset` any byte is read as a length byte (70_reset_and_hazards.md R154). -/
theorem perform_rxbyte_in_reset (hd : s.hresetDone = true) (hst : (s.link l).st = .reset) (b : Byte) :
    ∃ v, perform s (.rxbyte l b) = .next v ∧
      v.out = Result.ofLink l (if 3 ≤ b.toNat ∧ b.toNat < s.params.maxPacketSize then .none else .lenReject) := by
  by_cases hlegal : 3 ≤ b.toNat ∧ b.toNat < s.params.maxPacketSize
  · exact ⟨_, perform_rxbyte_of_legal hd hst hlegal, by rw [if_pos hlegal, withOut_out]⟩
  · exact ⟨_, perform_rxbyte_of_illegal hd hst hlegal, by rw [if_neg hlegal, withOut_out]⟩

/-- The framer over lists gives a frame from a sender `u` the events of `frameFate` (70_reset_and_hazards.md R160). -/
theorem feed_frameFate (u p : Params) {q : List Byte} (hlen : q.length + 2 < 256) :
    AFramer.feed p (crc16Of p.crc) .idle ((wireFrame q (crc16Of u.crc q)).take ((frameFate u p q).before + 1)) =
      (List.replicate (frameFate u p q).before .none ++ [(frameFate u p q).event], .idle) := by
  obtain ⟨hillegal, hfate⟩ | ⟨hlegal, hfull, hfate⟩ | ⟨hlegal, hfits, hfate⟩ := frameFate_cases u p q
  all_goals rw [hfate]
  · exact feed_wireFrame_illegal hlen hillegal
  · exact feed_wireFrame_overflow hlen hlegal hfull
  · rw [List.take_of_length_le (wireFrame_length ..).le]
    exact feed_wireFrame hlen hlegal hfits

/-- Settles O52. -/
theorem frameOfAnotherDeviceMeetsItsFate : Obligations.FrameOfAnotherDeviceMeetsItsFate := by
  intro u s l q hwf hmin hmax hd hst
  obtain ⟨hleast, hmost⟩ := Params.maxPacketSize_of_wf hwf
  obtain ⟨t, hrun, hreset, hkept⟩ :=
    performs_rxBytes_of_feed hd hst (feed_frameFate u.params s.params (q := q) (by omega))
  rw [List.map_append, List.map_replicate] at hrun
  refine ⟨_, t, perform_txenc_of_framable (framable_iff.mpr (by omega)), hrun, hreset, hkept.other, hkept.params,
    fun b => ?_⟩
  rw [← hkept.params]
  exact perform_rxbyte_in_reset (hkept.hresetDone.trans hd) hreset b

end

end Sys2Proof.Machine

/-!
PROOFS. What the invariant gives for single bytes (60_exceptions.md R133, R138) and for the end of a frame
(40_rx_framer.md section 5).
-/

namespace Sys2Proof.Machine

section
variable {s t : State} {l : Link} {b : Byte}

/-- Settles O46: a delivery ends a checksum, where the invariant bounds the index. -/
theorem deliveryCarriesTheVerifiedPayload : Obligations.DeliveryCarriesTheVerifiedPayload := by
  intro s t l l' b q hinv h hout
  obtain rfl : l' = l := by
    obtain ⟨-, rfl⟩ := perform_rxbyte_iff.mp h
    rw [received_out] at hout
    exact (Option.some.inj (Result.event.inj hout).1).symm
  obtain ⟨hst, -, hcollected, -⟩ := delivery_verified h hout
  obtain ⟨hreset, hrem, hidx, hacc, hslice⟩ := delivery_leaves h hout
  obtain ⟨-, hmin, hlegal, -⟩ := (hinv l').inChecksum hst
  have hlen : q.length = (s.link l').idx := by rw [← hcollected, collected_length]
  obtain ⟨-, hmax⟩ := legalLength_iff.mp hlegal
  exact ⟨rfl, hreset, hrem, hidx ▸ hslice, hidx.symm, hacc.symm, by omega, by omega⟩

/-- An overflow comes only from a payload byte that finds the buffer full (40_rx_framer.md R74). -/
theorem overflow_of_full (h : perform s (.rxbyte l b) = .next t) (hout : t.out = .event (some l) .overflow) :
    (s.link l).st = .data ∧ s.params.bufCapacity ≤ (s.link l).idx := by
  obtain ⟨-, rfl⟩ := perform_rxbyte_iff.mp h
  rw [received_out] at hout
  obtain ⟨-, -, hf⟩ | ⟨-, -, hf⟩ | ⟨-, -, hf⟩ | ⟨hst, hi, -⟩ | ⟨-, -, hf⟩ | ⟨-, -, hf⟩ :=
    receive_cases s.params (s.collected l) (s.link l) b
  case inr.inr.inr.inl => exact ⟨hst, hi⟩
  case inr.inr.inr.inr.inr => rw [hf] at hout; dsimp only at hout; split at hout <;> simp at hout
  all_goals simp [hf] at hout

/-- Settles O47: in `Data` the index and at least three bytes to come are a legal length, so the index is below
`MAX_PACKET_SIZE - 3`. -/
theorem largeBufferNeverOverflows : Obligations.LargeBufferNeverOverflows := by
  intro s t l b hinv hlarge h hout
  obtain ⟨hst, hfull⟩ := overflow_of_full h hout
  obtain ⟨hrem, hlegal, -⟩ := (hinv l).inData hst
  obtain ⟨-, hmax⟩ := legalLength_iff.mp hlegal
  omega

theorem Framer.Coherent.rem_pos {p : Params} {f : Framer} (h : f.Coherent p) (hst : f.st ≠ .reset) :
    1 ≤ f.rem.toNat := by
  cases hst' : f.st with
  | reset => exact absurd hst' hst
  | data => exact Nat.le_trans (by decide) (h.inData hst').1
  | checksum =>
    obtain ⟨⟨hrem, -⟩ | ⟨hrem, -⟩, -⟩ := h.inChecksum hst' <;> simp [hrem]

/-- Outside `Reset` a byte ends the frame or counts it down by one. -/
theorem receive_counts_down {p : Params} {f : Framer} (h : f.Coherent p) (hst : f.st ≠ .reset) (payload : List Byte)
    (b : Byte) :
    (f.receive p payload b).1.st = .reset ∨ (f.receive p payload b).1.rem.toNat + 1 = f.rem.toNat := by
  have hpos := h.rem_pos hst
  have hdec : (f.rem - 1#8).toNat + 1 = f.rem.toNat := by bv_omega
  obtain ⟨hst', -⟩ | ⟨hst', -⟩ | ⟨-, -, hf⟩ | ⟨-, -, hf⟩ | ⟨-, -, hf⟩ | ⟨-, -, hf⟩ := receive_cases p payload f b
  · exact absurd hst' hst
  · exact absurd hst' hst
  · rw [hf]; exact .inr hdec
  · rw [hf]; exact .inl rfl
  · rw [hf]; exact .inr hdec
  · rw [hf]; exact .inl rfl

/-- From registers that are coherent, any `rem` bytes bring a link back to `Reset` at some byte of them. -/
theorem frame_ends_within_countdown {bs : List Byte} (hd : s.hresetDone = true) (hc : (s.link l).Coherent s.params)
    (hst : (s.link l).st ≠ .reset) (hlen : bs.length = (s.link l).rem.toNat) :
    ∃ (k : Nat) (xs : List Result) (t : State), 1 ≤ k ∧ k ≤ bs.length ∧
      performs s (rxBytes l (bs.take k)) = some (xs, t) ∧ (t.link l).st = .reset := by
  induction bs generalizing s with
  | nil => exact absurd hlen (Nat.ne_of_lt (hc.rem_pos hst))
  | cons b bs ih =>
    have hb : perform s (.rxbyte l b) = .next (s.received l b) := perform_rxbyte_of_canReceive (hc.canReceive hd)
    have hc' : ((s.received l b).link l).Coherent (s.received l b).params := by
      rw [received_link, received_params]; exact hc.receive
    by_cases hend : ((s.received l b).link l).st = .reset
    · exact ⟨1, _, _, le_rfl, by simp, performs_singleton.mpr ⟨hb, rfl⟩, hend⟩
    · have hcount : ((s.received l b).link l).rem.toNat + 1 = (s.link l).rem.toNat := by
        rw [received_link] at hend ⊢
        exact (receive_counts_down hc hst _ b).resolve_left hend
      obtain ⟨k, xs, t, hk, hle, hrun, hreset⟩ :=
        ih (received_hresetDone.trans hd) hc' hend (by rw [List.length_cons] at hlen; omega)
      exact ⟨k + 1, _, t, by omega, by simpa using hle, (performs_cons ..).mpr ⟨_, xs, hb, hrun, rfl⟩, hreset⟩

/-- Settles O48. -/
theorem frameEndsWithinItsCountdown : Obligations.FrameEndsWithinItsCountdown := fun _ l _ hinv hd hst hlen =>
  frame_ends_within_countdown hd (hinv l).coherent hst hlen

end

end Sys2Proof.Machine

/-!
PROOFS. The decoder and the encoder (30_encoding.md R59, R62), and with them what a row does that is executed by itself:
it is selected, so that it is the operation it encodes to, or it is refused.
-/

namespace Sys2Proof.Machine

section
variable {p : Params} {view : Link → RxView} {i : Instr} {r : Request} {l : Link} {b : Byte}

/-- The conditions of the rows, as `selected` has them (30_encoding.md R62). -/
theorem selected_accept_iff : (Instr.rxbyteLenAccept l b).selected p view = true ↔
    (view l).st = .reset ∧ p.legalLength b.toNat = true := by simp [Instr.selected]

theorem selected_reject_iff : (Instr.rxbyteLenReject l b).selected p view = true ↔
    (view l).st = .reset ∧ p.legalLength b.toNat = false := by simp [Instr.selected]

theorem selected_store_iff : (Instr.rxbyteDataStore l b).selected p view = true ↔
    (view l).st = .data ∧ (view l).idx < p.bufCapacity := decide_eq_true_iff

theorem selected_overflow_iff : (Instr.rxbyteDataOverflow l b).selected p view = true ↔
    (view l).st = .data ∧ p.bufCapacity ≤ (view l).idx := decide_eq_true_iff

theorem selected_cks_iff : (Instr.rxbyteCks l b).selected p view = true ↔ (view l).st = .checksum :=
  decide_eq_true_iff

/-- Every other row is always selected. -/
theorem selected_of_not_rxbyte (h : ∀ l b, encode i ≠ .rxbyte l b) : i.selected p view = true := by
  cases i with
  | rxbyteLenAccept l n => exact absurd rfl (h l n)
  | rxbyteLenReject l n => exact absurd rfl (h l n)
  | rxbyteDataStore l b => exact absurd rfl (h l b)
  | rxbyteDataOverflow l b => exact absurd rfl (h l b)
  | rxbyteCks l b => exact absurd rfl (h l b)
  | _ => rfl

/-- A selected row is what its encoding decodes to. -/
theorem decode_encode (h : i.selected p view = true) : decode p view (encode i) = i := by
  cases i with
  | rxbyteLenAccept l n =>
    obtain ⟨hst, hl⟩ := selected_accept_iff.mp h
    exact decode_rxbyte_accept hst hl
  | rxbyteLenReject l n =>
    obtain ⟨hst, hl⟩ := selected_reject_iff.mp h
    exact decode_rxbyte_reject hst hl
  | rxbyteDataStore l b =>
    obtain ⟨hst, hidx⟩ := selected_store_iff.mp h
    exact decode_rxbyte_store hst hidx
  | rxbyteDataOverflow l b =>
    obtain ⟨hst, hidx⟩ := selected_overflow_iff.mp h
    exact decode_rxbyte_overflow hst hidx
  | rxbyteCks l b => exact decode_rxbyte_cks (selected_cks_iff.mp h)
  | _ => rfl

/-- Settles O25. -/
theorem decodeOfEncodeIsTheRow : Obligations.DecodeOfEncodeIsTheRow := fun _ _ _ _ hsel => decode_encode hsel

/-- The law `SelectedIsWellFormed`, for every row. -/
theorem wf_of_selected (h : i.selected p view = true) : i.wf p = true := by
  cases i with
  | rxbyteLenAccept l n => exact Laws.SelectedIsWellFormed.rxbyteLenAccept l n p view h
  | rxbyteLenReject l n => exact Laws.SelectedIsWellFormed.rxbyteLenReject l n p view h
  | _ => rfl

/-- What a received byte is decoded to: its link's state and the row's condition hold (30_encoding.md R62). -/
theorem decode_rxbyte_spec (p : Params) (view : Link → RxView) (l : Link) (b : Byte) :
    (decode p view (.rxbyte l b)).selected p view = true ∧ encode (decode p view (.rxbyte l b)) = .rxbyte l b := by
  cases hst : (view l).st
  case reset =>
    cases hl : p.legalLength b.toNat
    · rw [decode_rxbyte_reject hst hl]
      exact ⟨selected_reject_iff.mpr ⟨hst, hl⟩, rfl⟩
    · rw [decode_rxbyte_accept hst hl]
      exact ⟨selected_accept_iff.mpr ⟨hst, hl⟩, rfl⟩
  case data =>
    by_cases hidx : (view l).idx < p.bufCapacity
    · rw [decode_rxbyte_store hst hidx]
      exact ⟨selected_store_iff.mpr ⟨hst, hidx⟩, rfl⟩
    · have hfull := Nat.not_lt.mp hidx
      rw [decode_rxbyte_overflow hst hfull]
      exact ⟨selected_overflow_iff.mpr ⟨hst, hfull⟩, rfl⟩
  case checksum =>
    rw [decode_rxbyte_cks hst]
    exact ⟨selected_cks_iff.mpr hst, rfl⟩

theorem decode_spec (p : Params) (view : Link → RxView) (r : Request) :
    (decode p view r).selected p view = true ∧ encode (decode p view r) = r := by
  cases r with
  | rxbyte l b => exact decode_rxbyte_spec p view l b
  | _ => exact ⟨rfl, rfl⟩

/-- Settles O26: two selected rows with the same encoding are both what it decodes to. -/
theorem exactlyOneRowIsSelected : Obligations.ExactlyOneRowIsSelected := by
  intro p view r
  obtain ⟨hsel, henc⟩ := decode_spec p view r
  refine ⟨hsel, wf_of_selected hsel, henc, fun i hi hr => ?_⟩
  rw [← hr, decode_encode hi]

/-- The five rows of `RXBYTE(L, b)` are those that encode to it (30_encoding.md R59). -/
theorem mem_rxbyte_rows :
    i ∈ [Instr.rxbyteLenAccept l b, .rxbyteLenReject l b, .rxbyteDataStore l b, .rxbyteDataOverflow l b,
      .rxbyteCks l b] ↔ encode i = .rxbyte l b := by
  cases i <;> simp [encode]

theorem encodeWire_of_rxbyte (h : encode i = .rxbyte l b) : encodeWire i = [b] := by
  cases i <;> simp_all [encode, encodeWire]

theorem decodeWire_singleton (p : Params) (view : Link → RxView) (l : Link) (b : Byte) :
    decodeWire p (view l) l [b] = .ok (decode p view (.rxbyte l b)) := rfl

/-- Settles O27. -/
theorem wireByteOfRowDecodesToRow : Obligations.WireByteOfRowDecodesToRow := by
  intro p view l b
  refine ⟨fun i hi hsel => ?_, fun bytes i h => ?_⟩
  · have henc := mem_rxbyte_rows.mp hi
    rw [encodeWire_of_rxbyte henc, decodeWire_singleton, ← henc, decode_encode hsel]
  · match bytes with
    | [] => cases h
    | [c] =>
      rw [decodeWire_singleton] at h
      cases h
      exact ⟨rfl, encodeWire_of_rxbyte (decode_spec p view (.rxbyte l c)).2⟩
    | _ :: _ :: _ => cases h

/-- Settles O28. -/
theorem sampleWireBytesDecode : Obligations.SampleWireBytesDecode := by
  rintro p rfl
  decide

/-- Settles O24. -/
theorem eventCodesAndClasses : Obligations.EventCodesAndClasses := by
  refine fun p => ⟨rfl, rfl, rfl, rfl, rfl, rfl, rfl, rfl, rfl, rfl, rfl, rfl, fun e => ?_⟩
  cases e <;> rfl

end

section
variable {s t : State} {i : Instr} {l : Link} {b : Byte}

/-- Every row of `RXBYTE` is guarded alike. -/
theorem exec_of_rxbyte (h : encode i = .rxbyte l b) (s : State) : ∃ k, exec i s = guardRx i s k := by
  cases i with
  | rxbyteLenAccept l n => exact ⟨_, rfl⟩
  | rxbyteLenReject l n => exact ⟨_, rfl⟩
  | rxbyteDataStore l b => exact ⟨_, rfl⟩
  | rxbyteDataOverflow l b => exact ⟨_, rfl⟩
  | rxbyteCks l b => exact ⟨_, rfl⟩
  | _ => cases h

/-- Settles O14. -/
theorem unselectedCaseIsRefused : Obligations.UnselectedCaseIsRefused := by
  intro l b s i hi hd hsel
  obtain ⟨k, hk⟩ := exec_of_rxbyte (mem_rxbyte_rows.mp hi) s
  simp [hk, guardRx, hd, hsel]

/-- Settles O15. -/
theorem receiveBeforeHresetIsRefused : Obligations.ReceiveBeforeHresetIsRefused := by
  intro l b s hd
  obtain ⟨k, hk⟩ := exec_of_rxbyte (decode_spec s.params s.view (.rxbyte l b)).2 s
  rw [perform_eq, hk, guardRx, if_pos hd]

/-- Settles O16. -/
theorem simultaneousOperationsAreRefused : Obligations.SimultaneousOperationsAreRefused := by
  intro s r r' rs rest h
  rw [step, h]; rfl

/-- Settles O17. -/
theorem completionPastTheBufferFaults : Obligations.CompletionPastTheBufferFaults := by
  intro l b s hd hst hrem hidx
  rw [exec_cks_of_last hd hst hrem]
  exact complete_fault (by simpa using hidx)

/-- Settles O18. -/
theorem stepRunsTheDecodedOperation : Obligations.StepRunsTheDecodedOperation := by
  intro s r rest h
  rw [step_of_one h, perform_eq, takeInstant_params, takeInstant_view]
  rfl

/-- A row that takes a next state is selected. -/
theorem selected_of_exec_next (h : exec i s = .next t) : i.selected s.params s.view = true := by
  by_cases hrx : ∃ l b, encode i = .rxbyte l b
  · obtain ⟨l, b, henc⟩ := hrx
    obtain ⟨k, hk⟩ := exec_of_rxbyte henc s
    rw [hk] at h
    exact (guardRx_next.mp h).2.1
  · exact selected_of_not_rxbyte fun l b henc => hrx ⟨l, b, henc⟩

/-- A row that takes a next state is the operation it encodes to. -/
theorem perform_encode_of_exec_next (h : exec i s = .next t) : perform s (encode i) = .next t := by
  rw [perform_eq, decode_encode (selected_of_exec_next h)]
  exact h

/-- A row of `RXBYTE(L, b)` that takes a next state receives the byte. -/
theorem eq_received_of_exec_next (henc : encode i = .rxbyte l b) (h : exec i s = .next t) : t = s.received l b := by
  have hperf := perform_encode_of_exec_next h
  rw [henc] at hperf
  exact (perform_rxbyte_iff.mp hperf).2

/-- The read of a cell depends on the link's buffer, the device and the epoch alone. -/
theorem bufRead_congr {l : Link} {a : Nat} (hcell : t.cell l a = s.cell l a) (hparams : t.params = s.params) :
    t.bufRead l a = s.bufRead l a := by rw [State.bufRead, State.bufRead, hcell, hparams]

/-- Replacing a framer by one with the same buffer, and recording a result, changes no byte and nothing besides that
framer. -/
theorem withOut_setLink_frame {f : Framer} (hbuf : f.buf = (s.link l).buf) (x : Result) :
    ((s.setLink l f).withOut x).link l.other = s.link l.other ∧
    (∀ l' a, ((s.setLink l f).withOut x).bufRead l' a = s.bufRead l' a) ∧
    ((s.setLink l f).withOut x).params = s.params ∧ ((s.setLink l f).withOut x).hresetDone = s.hresetDone ∧
    ((s.setLink l f).withOut x).epoch = s.epoch ∧ ((s.setLink l f).withOut x).inbox = s.inbox := by
  refine ⟨by simp, fun l' a => bufRead_congr ?_ (by simp), by simp, by simp, by simp, by simp⟩
  rw [withOut_cell, cell_setLink_of_buf _ _ _ _ _ hbuf]

/-- Only a payload byte that finds room changes the buffer (20_memory.md R31). -/
theorem receive_buf_of_no_store {p : Params} {f : Framer} (h : f.st = .data → p.bufCapacity ≤ f.idx)
    (payload : List Byte) (b : Byte) : (f.receive p payload b).1.buf = f.buf := by
  obtain ⟨-, -, hf⟩ | ⟨-, -, hf⟩ | ⟨hst, hi, -⟩ | ⟨-, -, hf⟩ | ⟨-, -, hf⟩ | ⟨-, -, hf⟩ := receive_cases p payload f b
  case inr.inr.inl => exact absurd hi (Nat.not_lt.mpr (h hst))
  all_goals simp [hf]

theorem receive_idx_of_checksum {p : Params} {f : Framer} (hst : f.st = .checksum) (payload : List Byte) (b : Byte) :
    (f.receive p payload b).1.idx = f.idx := by
  by_cases hrem : f.rem = 1#8
  · rw [receive_of_last hst hrem]; rfl
  · rw [receive_of_more hst hrem]; rfl

/-- A received byte that is not stored changes no byte of either buffer and nothing besides its link's framer. -/
theorem received_frame (h : (s.link l).st = .data → s.params.bufCapacity ≤ (s.link l).idx) :
    (s.received l b).link l.other = s.link l.other ∧ (∀ l' a, (s.received l b).bufRead l' a = s.bufRead l' a) ∧
    (s.received l b).params = s.params ∧ (s.received l b).hresetDone = s.hresetDone ∧
    (s.received l b).epoch = s.epoch ∧ (s.received l b).inbox = s.inbox :=
  withOut_setLink_frame (receive_buf_of_no_store h ..) _

/-- Settles O35: the rows but the store are selected where receiving the byte leaves the buffer. -/
theorem nonStoringOperationsFrame : Obligations.NonStoringOperationsFrame := by
  intro l b s t
  refine ⟨fun i hi h => ?_, fun h => ?_, fun h => ?_, fun h => ?_⟩
  · have hsel := selected_of_exec_next h
    simp only [List.mem_cons, List.not_mem_nil, or_false] at hi
    obtain rfl | rfl | rfl | rfl | rfl := hi
    · obtain ⟨hst, -⟩ := selected_accept_iff.mp hsel
      rw [eq_received_of_exec_next rfl h]
      exact received_frame fun hdata => nomatch hst.symm.trans hdata
    · obtain ⟨hst, -⟩ := selected_reject_iff.mp hsel
      rw [eq_received_of_exec_next rfl h]
      exact received_frame fun hdata => nomatch hst.symm.trans hdata
    · rw [eq_received_of_exec_next rfl h]
      exact received_frame fun _ => (selected_overflow_iff.mp hsel).2
    · rw [eq_received_of_exec_next rfl h]
      exact received_frame fun hdata => nomatch (selected_cks_iff.mp hsel).symm.trans hdata
    · rw [exec_sreset, Host.Outcome.next.injEq] at h
      rw [← h]
      exact withOut_setLink_frame (sessionReset_buf _) _
  · obtain ⟨hst, hl⟩ := selected_reject_iff.mp (selected_of_exec_next h)
    rw [eq_received_of_exec_next rfl h, received_link, receive_of_illegal hst hl]
  · obtain ⟨hst, hidx⟩ := selected_overflow_iff.mp (selected_of_exec_next h)
    rw [eq_received_of_exec_next rfl h, received_link, receive_of_full hst hidx]
    exact ⟨rfl, rfl, rfl⟩
  · rw [eq_received_of_exec_next rfl h, received_link]
    exact receive_idx_of_checksum (selected_cks_iff.mp (selected_of_exec_next h)) ..

/-- Settles O36. -/
theorem storeChangesOneCellOnly : Obligations.StoreChangesOneCellOnly := by
  intro l b s t h
  obtain ⟨hst, hidx⟩ := selected_store_iff.mp (selected_of_exec_next h)
  rw [eq_received_of_exec_next rfl h, received_eq (receive_of_room hst hidx)]
  refine ⟨?_, fun l' a hne => bufRead_congr ?_ (by simp), by simp, by simp, by simp, by simp, by simp, by simp⟩
  · rw [bufRead_eq_some, withOut_cell, cell_storeByte, if_pos ⟨rfl, rfl⟩]
    exact ⟨by simpa using hidx, rfl⟩
  · rw [withOut_cell, cell_storeByte, if_neg (fun ⟨hl, ha⟩ => hne.elim (absurd hl) (absurd ha))]

/-- A recorded result is all that the encoder and the codec leave behind. -/
theorem withOut_frame (s : State) (x : Result) :
    (∀ l, (s.withOut x).link l = s.link l) ∧ (∀ l a, (s.withOut x).bufRead l a = s.bufRead l a) ∧
    (s.withOut x).params = s.params ∧ (s.withOut x).hresetDone = s.hresetDone ∧ (s.withOut x).epoch = s.epoch ∧
    (s.withOut x).inbox = s.inbox :=
  ⟨fun _ => withOut_link .., fun _ _ => bufRead_congr (withOut_cell ..) rfl, rfl, rfl, rfl, rfl⟩

/-- Settles O37. -/
theorem statelessOperationsFrame : Obligations.StatelessOperationsFrame := by
  intro q xs c r b s t i hi h
  have hafter := (perform_iff.mp (perform_encode_of_exec_next h)).2
  simp only [List.mem_cons, List.not_mem_nil, or_false] at hi
  obtain rfl | rfl | rfl | rfl := hi
  all_goals
    rw [hafter]
    exact withOut_frame ..

end

end Sys2Proof.Machine

/-!
PROOFS. What the checksum detects (41_integrity_codec.md R97, R98): the register is linear over exclusive or, and it
loses nothing when bit 0 of the polynomial is 1; and what that means for devices built with different parameters
(70_reset_and_hazards.md R160).
-/

namespace Sys2Proof.Machine

theorem reverse_xor {w : Nat} (x y : BitVec w) : (x ^^^ y).reverse = x.reverse ^^^ y.reverse := by
  apply BitVec.eq_of_getLsbD_eq
  intro i hi
  simp [getLsbD_reverse_of_lt _ hi, BitVec.getLsbD_xor]

theorem crcInput_xor (k : CrcParams) (a b : Byte) : crcInput k (a ^^^ b) = crcInput k a ^^^ crcInput k b := by
  unfold crcInput
  split
  · exact reverse_xor a b
  · rfl

/-- One byte of the checksum is linear in the register and the byte together. -/
theorem crcUpd_xor (k : CrcParams) (c d : U16) (a b : Byte) :
    crcUpd k (c ^^^ d) (a ^^^ b) = crcUpd k c a ^^^ crcUpd k d b := by
  rw [crcUpd, crcUpd, crcUpd, ← crcShifts_xor, crcInput_xor, BitVec.setWidth_xor, BitVec.shiftLeft_xor_distrib]
  ac_rfl

theorem crcFold_cons (k : CrcParams) (c : U16) (x : Byte) (xs : List Byte) :
    crcFold k c (x :: xs) = crcFold k (crcUpd k c x) xs := rfl

theorem crcFold_append (k : CrcParams) (c : U16) (xs ys : List Byte) :
    crcFold k c (xs ++ ys) = crcFold k (crcFold k c xs) ys := List.foldl_append

theorem crcFold_xor (k : CrcParams) (c d : U16) {xs ys : List Byte} (h : xs.length = ys.length) :
    crcFold k c xs ^^^ crcFold k d ys = crcFold k (c ^^^ d) (List.zipWith (· ^^^ ·) xs ys) := by
  induction xs generalizing c d ys with
  | nil =>
    obtain rfl := List.length_eq_zero_iff.mp h.symm
    rfl
  | cons x xs ih =>
    obtain ⟨y, ys, rfl⟩ := List.exists_cons_of_length_eq_add_one h.symm
    rw [crcFold_cons, crcFold_cons, ih _ _ (Nat.succ.inj h), ← crcUpd_xor]
    rfl

/-- The final exclusive or cancels in a difference. -/
theorem crcFinish_xor (k : CrcParams) (c d : U16) :
    crcFinish k c ^^^ crcFinish k d = if k.refout then reflect16 (c ^^^ d) else c ^^^ d := by
  have hcancel : ∀ x y z : U16, (x ^^^ z) ^^^ (y ^^^ z) = x ^^^ y := fun x y z => by
    rw [BitVec.xor_comm y, BitVec.xor_assoc, ← BitVec.xor_assoc z, BitVec.xor_self, BitVec.zero_xor]
  unfold crcFinish
  rw [hcancel]
  split
  · exact (reverse_xor c d).symm
  · rfl

/-- Settles O50: the two runs start from the same register. -/
theorem checksumDifferenceIsTheRegisterFromZero : Obligations.ChecksumDifferenceIsTheRegisterFromZero := by
  intro k xs ys h
  rw [crc16Of, crc16Of, crcFinish_xor, crcFold_xor k _ _ h, BitVec.xor_self]
  rfl

/-- The end of a checksum loses nothing. -/
theorem crcFinish_injective (k : CrcParams) : Function.Injective (crcFinish k) := by
  intro c d h
  have hxor : crcFinish k c ^^^ crcFinish k d = 0#16 := by rw [h, BitVec.xor_self]
  rw [crcFinish_xor] at hxor
  split at hxor
  · refine BitVec.xor_eq_zero_iff.mp (BitVec.reverse_reverse_eq.symm.trans ?_)
    rw [show (c ^^^ d).reverse = 0#16 from hxor]
    rfl
  · exact BitVec.xor_eq_zero_iff.mp hxor

section
variable {poly : U16}

/-- With bit 0 of the polynomial set, bit 0 after a shift is the bit that was shifted out. -/
theorem eq_zero_of_crcShift_eq_zero (hpoly : poly.getLsbD 0 = true) {c : U16} (h : crcShift poly c = 0#16) :
    c = 0#16 := by
  have hout : c.getLsbD 15 = false := by
    by_contra hset
    rw [crcShift_eq_xor, if_pos (by simpa using hset)] at h
    have hbit := congrArg (BitVec.getLsbD · 0) h
    simp only [BitVec.getLsbD_xor, hpoly, BitVec.getLsbD_shiftLeft] at hbit
    simp at hbit
  rw [crcShift_eq_xor, hout, if_neg Bool.false_ne_true, BitVec.xor_zero] at h
  apply BitVec.eq_of_getLsbD_eq
  intro i hi
  by_cases hlast : i = 15
  · rw [hlast, hout]; rfl
  · have hbit := congrArg (BitVec.getLsbD · (i + 1)) h
    simpa [show i + 1 < 16 by omega, BitVec.getLsbD_eq_getElem hi] using hbit

theorem crcShift_injective (hpoly : poly.getLsbD 0 = true) : Function.Injective (crcShift poly) := fun c d h =>
  BitVec.xor_eq_zero_iff.mp <| eq_zero_of_crcShift_eq_zero hpoly <| by rw [crcShift_xor, h, BitVec.xor_self]

theorem crcShifts_injective (hpoly : poly.getLsbD 0 = true) (n : Nat) : Function.Injective (crcShifts poly n) := by
  have hiter : crcShifts poly n = (crcShift poly)^[n] := funext fun c => crcShifts_eq_iterate poly c n
  rw [hiter]
  exact (crcShift_injective hpoly).iterate n

end

section
variable {k : CrcParams} {c d : U16} {a b a' b' : Byte}

theorem crcInput_injective (k : CrcParams) : Function.Injective (crcInput k) := by
  intro a b h
  unfold crcInput at h
  split at h
  · exact BitVec.reverse_reverse_eq.symm.trans ((congrArg BitVec.reverse h).trans BitVec.reverse_reverse_eq)
  · exact h

theorem crcUpd_injective_register (hpoly : k.poly.getLsbD 0 = true) (b : Byte) :
    Function.Injective fun c => crcUpd k c b := fun _ _ h => (BitVec.xor_left_inj _).mp (crcShifts_injective hpoly 8 h)

theorem crcFold_injective_register (hpoly : k.poly.getLsbD 0 = true) (xs : List Byte) :
    Function.Injective fun c => crcFold k c xs := by
  induction xs with
  | nil => exact fun _ _ h => h
  | cons x xs ih => exact fun _ _ h => crcUpd_injective_register hpoly x (ih h)

/-- Changes confined to the bytes between `before` and `after` show in the checksum if they show in the register. -/
theorem crc16Of_ne_of_crcFold_ne (hpoly : k.poly.getLsbD 0 = true) (before after : List Byte) {xs ys : List Byte}
    (h : ∀ c, crcFold k c xs ≠ crcFold k c ys) :
    crc16Of k (before ++ xs ++ after) ≠ crc16Of k (before ++ ys ++ after) := by
  intro heq
  have hfold := crcFinish_injective k heq
  rw [crcFold_append, crcFold_append, crcFold_append, crcFold_append] at hfold
  exact h _ (crcFold_injective_register hpoly after hfold)

/-- Shifts add up. -/
theorem crcShifts_crcShifts (poly : U16) (m n : Nat) (c : U16) :
    crcShifts poly m (crcShifts poly n c) = crcShifts poly (m + n) c := by
  simp only [crcShifts_eq_iterate, Function.iterate_add_apply]

/-- A byte in the high half of a word and one in its low half. -/
theorem high_xor_low_eq_append (x y : Byte) : x.setWidth 16 <<< 8 ^^^ y.setWidth 16 = x ++ y := by
  ext i hi
  rw [BitVec.getElem_append]
  by_cases hlow : i < 8
  · simp [hlow, BitVec.getLsbD_eq_getElem]
  · simp [hlow, show i - 8 < 8 by omega, BitVec.getLsbD_of_ge y i (by omega), BitVec.getLsbD_eq_getElem]

theorem append_eq_append {x y x' y' : Byte} (h : (x ++ y : U16) = x' ++ y') : x = x' ∧ y = y' := by
  have hhigh := congrArg (BitVec.extractLsb' 8 8) h
  have hlow := congrArg (BitVec.extractLsb' 0 8) h
  rw [BitVec.extractLsb'_append_eq_left, BitVec.extractLsb'_append_eq_left] at hhigh
  rw [BitVec.extractLsb'_append_eq_right, BitVec.extractLsb'_append_eq_right] at hlow
  exact ⟨hhigh, hlow⟩

/-- A byte enters the high half of the register. -/
theorem crcUpd_eq_append (k : CrcParams) (c : U16) (a : Byte) :
    crcUpd k c a = crcShifts k.poly 8 (c ^^^ (crcInput k a ++ 0#8)) := by
  rw [crcUpd, ← high_xor_low_eq_append, BitVec.setWidth_zero, BitVec.xor_zero]

/-- Two bytes enter the register side by side: while the first is shifted out, the second moves up unchanged. -/
theorem crcUpd_crcUpd (k : CrcParams) (c : U16) (a b : Byte) :
    crcUpd k (crcUpd k c a) b = crcShifts k.poly 16 (c ^^^ (crcInput k a ++ crcInput k b)) := by
  set x := crcInput k a
  set y := crcInput k b
  have hzero : ∀ i < 8, (y.setWidth 16).getMsbD i = false := fun i hi => by
    simp [BitVec.getMsbD_eq_getLsbD, BitVec.getLsbD_of_ge y (15 - i) (by omega)]
  have hy : y.setWidth 16 <<< 8 = crcShifts k.poly 8 (y.setWidth 16) := (crcShifts_of_high_zero _ hzero).symm
  calc crcUpd k (crcUpd k c a) b
      = crcShifts k.poly 8 (crcShifts k.poly 8 (c ^^^ x.setWidth 16 <<< 8) ^^^ y.setWidth 16 <<< 8) := rfl
    _ = crcShifts k.poly 16 (c ^^^ (x.setWidth 16 <<< 8 ^^^ y.setWidth 16)) := by
        rw [hy, ← crcShifts_xor, crcShifts_crcShifts, BitVec.xor_assoc]
    _ = crcShifts k.poly 16 (c ^^^ (x ++ y)) := by rw [high_xor_low_eq_append]

/-- Settles O51: the one or two bytes can be read off the shifted register. -/
theorem checksumDetectsAdjacentByteChanges : Obligations.ChecksumDetectsAdjacentByteChanges := by
  intro k before after a b a' b' hpoly
  refine ⟨fun hne => crc16Of_ne_of_crcFold_ne hpoly before after fun c h => hne ?_,
    fun hne => crc16Of_ne_of_crcFold_ne hpoly before after fun c h => ?_⟩
  · change crcUpd k c a = crcUpd k c a' at h
    rw [crcUpd_eq_append, crcUpd_eq_append] at h
    have hin := (BitVec.xor_right_inj _).mp (crcShifts_injective hpoly 8 h)
    exact crcInput_injective k (append_eq_append hin).1
  · change crcUpd k (crcUpd k c a) b = crcUpd k (crcUpd k c a') b' at h
    rw [crcUpd_crcUpd, crcUpd_crcUpd] at h
    obtain ⟨ha, hb⟩ := append_eq_append ((BitVec.xor_right_inj _).mp (crcShifts_injective hpoly 16 h))
    exact hne.elim (absurd (crcInput_injective k ha)) (absurd (crcInput_injective k hb))

/-- A different final exclusive or always shows in the checksum. -/
theorem crc16Of_xorout_ne {x : U16} (hx : x ≠ k.xorout) (q : List Byte) :
    crc16Of k q ≠ crc16Of { k with xorout := x } q := fun h =>
  hx ((BitVec.xor_right_inj _).mp h).symm

/-- A different initial value shows in the checksum when bit 0 of the polynomial is 1. -/
theorem crc16Of_init_ne (hpoly : k.poly.getLsbD 0 = true) {x : U16} (hx : x ≠ k.init) (q : List Byte) :
    crc16Of k q ≠ crc16Of { k with init := x } q := fun h =>
  hx (crcFold_injective_register hpoly q (crcFinish_injective k h)).symm

end

section
variable {sender receiver : Params} {q : List Byte}

/-- A frame that the receiver's bounds admit is delivered or dropped as the two checksums say (41_integrity_codec.md
R95). -/
theorem frameFate_of_admitted (hmin : 1 ≤ q.length) (hmax : q.length + 2 < receiver.maxPacketSize)
    (hfits : q.length ≤ receiver.bufCapacity) :
    frameFate sender receiver q = ⟨q.length + 2,
      if crc16Of receiver.crc q = crc16Of sender.crc q then .frameOk q else .frameBad⟩ := by
  have hlegal : receiver.legalLength (q.length + 2) = true := legalLength_iff.mpr (by omega)
  obtain ⟨hillegal, -⟩ | ⟨-, hfull, -⟩ | ⟨-, -, hfate⟩ := frameFate_cases sender receiver q
  · simp [hlegal] at hillegal
  · exact absurd hfull (Nat.not_lt.mpr hfits)
  · exact hfate

/-- A delivered frame was admitted by the receiver's bounds. -/
theorem admitted_of_frameOk (h : (frameFate sender receiver q).event = .frameOk q) :
    q.length + 2 < receiver.maxPacketSize ∧ q.length ≤ receiver.bufCapacity := by
  obtain ⟨-, hfate⟩ | ⟨-, -, hfate⟩ | ⟨hlegal, hfits, -⟩ := frameFate_cases sender receiver q
  · simp [hfate] at h
  · simp [hfate] at h
  · exact ⟨(legalLength_iff.mp hlegal).2, hfits⟩

theorem frameFate_ne_frameBad (hcrc : sender.crc = receiver.crc) :
    (frameFate sender receiver q).event ≠ .frameBad := by
  obtain ⟨-, hfate⟩ | ⟨-, -, hfate⟩ | ⟨-, -, hfate⟩ := frameFate_cases sender receiver q
  all_goals simp [hfate, hcrc]

end

/-- Settles O53: the sender's longest payload, of `MAX_PACKET_SIZE - 3` bytes, needs both bounds of the receiver. -/
theorem builtAlikeDevicesDeliverEveryFrame : Obligations.BuiltAlikeDevicesDeliverEveryFrame := by
  refine ⟨fun sender receiver q halike hmin hmax => ?_, fun sender receiver hwf hall => ?_,
    fun sender receiver q => frameFate_ne_frameBad, fun p => ?_⟩
  · obtain ⟨hcrc, hlengths, hpayloads⟩ := builtAlike_iff.mp halike
    rw [frameFate_of_admitted hmin (by omega) (by omega), hcrc, if_pos rfl]
  · obtain ⟨hleast, -⟩ := Params.maxPacketSize_of_wf hwf
    have hlongest := hall (List.replicate (sender.maxPacketSize - 3) 0)
    rw [List.length_replicate] at hlongest
    obtain ⟨hmax, hfits⟩ := admitted_of_frameOk (hlongest (by omega) le_rfl)
    rw [List.length_replicate] at hmax hfits
    exact ⟨by omega, hfits⟩
  · simp [builtAlike_iff]

/-- Settles O54. -/
theorem differingChecksumParametersDropEveryFrame : Obligations.DifferingChecksumParametersDropEveryFrame := by
  intro sender receiver q hmin hmax hfits hdiffer
  have hne : crc16Of receiver.crc q ≠ crc16Of sender.crc q := by
    obtain ⟨x, hx, hcrc⟩ | ⟨hpoly, x, hx, hcrc⟩ := hdiffer
    · rw [hcrc]; exact crc16Of_xorout_ne hx q
    · rw [hcrc]; exact crc16Of_init_ne hpoly hx q
  rw [frameFate_of_admitted hmin hmax hfits, if_neg hne]

end Sys2Proof.Machine
